-- ==== Sys2Proof/Word.lean ====
section
/-!
DEFINITION. The word types: a command or response word of 32 bits (R59, R68) and one 8-bit channel value (R10's `u8`).
-/

namespace Sys2Proof

/-- A command word, or a response word: 32 bits, bit 0 least significant (R10, R59, R68). -/
abbrev Word := BitVec 32

/-- CHAN_BITS: bits per colour channel (R7). -/
abbrev chanBits : Nat := 8

/-- `u8`: one colour channel value, 0 to 255 (R10, R17). -/
abbrev Byte := BitVec chanBits

end Sys2Proof
end

