-- ==== Sys2Proof/Config.lean ====
section
/-!
DEFINITION. What is fixed when the block is built (R7, R8, R9): the settled constants by name, and the OPEN
parameters as one structure. `Config.params` is the block's own choice of the open ones and has no body: nothing in
Lean can say what it is, so whatever is proved of it holds for every build of the block.
-/

namespace Sys2Proof

/-! ## The settled constants of R7 -/

/-- N_ROWS: the logical grid has 5 rows. -/
abbrev nRows : Nat := 5
/-- N_COLS: the logical grid has 5 columns. -/
abbrev nCols : Nat := 5
/-- N_PIX: pixels in the buffer and LEDs on the strip. -/
abbrev nPix : Nat := 25
/-- N_CHAN: channels per pixel. -/
abbrev nChan : Nat := 3
/-- N_BYTES: channel values per frame, 3 x 25. -/
abbrev nBytes : Nat := 75
/-- N_GLYPHS: one glyph per digit 0 to 9. -/
abbrev nGlyphs : Nat := 10
/-- T_RESET_MIN: the least idle time between two frames, in microseconds. -/
abbrev tResetMin : Nat := 100
/-- The host's debounce window in milliseconds (R130, R146). Host reference model only. -/
abbrev debounceWindow : Nat := 200
/-- The period of the host's MainLoop in milliseconds (R130, R146, R155). Host reference model only. -/
abbrev tickPeriod : Nat := 100

/-! ## The OPEN parameters of R8 -/

/-- One cell of the glyph table, in the glyph's own channel order (R,G,B) (R10, R20, R43). -/
structure Cell where
  R : Byte
  G : Byte
  B : Byte
deriving DecidableEq, Repr, Inhabited

/-- One glyph: a 5 x 5 grid of cells, by logical row and column (R20). -/
abbrev Glyph := Fin nRows → Fin nCols → Cell

/-- The OPEN parameters of R8, and the free values of 93_implementation_defined.md. A parameter that R8 constrains is
held by what it exceeds its bound by, so that every `Params` meets R8 and every choice R8 allows is some `Params`
(log entries 4, 5 and 6). Times on the wire are whole clock cycles, since all state changes on a rising edge of `clk`
(R27); T_GAP and F_CLK are positive rationals, in microseconds and megahertz. -/
structure Params where
  /-- GLYPH: the ten bitmaps (R20, R89). -/
  glyph : Fin nGlyphs → Glyph
  /-- CHANNEL_OK: whether an output channel exists at start-up (R123). -/
  channelOk : Bool
  /-- T_GAP is T_RESET_MIN + gapNum / (gapDen + 1) microseconds (R102). -/
  gapNum : Nat
  gapDen : Nat
  /-- F_CLK is (clkNum + 1) / (clkDen + 1) megahertz. -/
  clkNum : Nat
  clkDen : Nat
  /-- T0H is t0hExtra + 1 cycles. -/
  t0hExtra : Nat
  /-- T1H is T0H + t1hExtra + 1 cycles. -/
  t1hExtra : Nat
  /-- T_BIT is T1H + tBitExtra + 1 cycles. -/
  tBitExtra : Nat
  /-- FIFO_DEPTH is fifoExtra + 1 bytes (R29). -/
  fifoExtra : Nat
  /-- L_CMD is lCmdExtra + 1 cycles (R71). -/
  lCmdExtra : Nat
  /-- The emitter's start-up cycles before the first byte of a frame: any value (S4, R113). Drawn afresh for each frame. -/
  startup : Nat → Nat
  /-- The cycles RENDER spends in EXEC beyond the first: the spec gives none. Drawn afresh for each frame. -/
  renderExec : Nat → Nat
  /-- What an LED of the strip shows after reset has cut a frame short: any colour (S1, R142), drawn afresh by each strip
  observer for each cut and position. Receiver view only (R116). -/
  ledAfterCut : Nat → Nat → Cell
  /-- T_LAST0: the host's initial debounce timestamp, in milliseconds (R150). Host reference model only. -/
  tLast0 : Nat
  /-- The level of the host's status indicator at start-up. DESIGN CHOICE: the spec says only that each tick toggles it (R5,
  R155) and gives no first level, so it is left open here (log entry 18). Host reference model only. -/
  indicator0 : Bool
  /-- FLAG_ON_BLOCKED: whether a debounced event that the counter bound blocks sets render-pending (R154). Host reference
  model only. -/
  flagOnBlocked : Bool := true
deriving Inhabited

/-- The block's own parameters: no body, so no proof can see a value (R8: none is given by the source). -/
opaque Config.params : Params

end Sys2Proof
end

