-- ==== Sys2Proof/Machine/Operands.lean ====
section
/-!
DEFINITION. The range checks of the operands (R120) and the serpentine mapper (R82 to R88).
-/

namespace Sys2Proof.Machine

/-- WRITE_PIXEL's check: p is 0 to 24 (R79, R120). -/
def pixelInRange (p : Nat) : Bool := decide (p < nPix)

/-- DRAW's and RENDER's check: d is 0 to 9 (R90, R120). -/
def digit? (d : Nat) : Option (Fin nGlyphs) := if h : d < nGlyphs then some ⟨d, h⟩ else none

/-- MAP's check: i and j are 0 to 4 (R91, R120). -/
def coordInRange (i j : Nat) : Bool := decide (i < nRows) && decide (j < nCols)

/-- The serpentine mapping of R83, on naturals (R88). Written for 5 x 5 only (R7). -/
def phys (i j : Nat) : Nat :=
  let prow := 4 - i
  let pcol := if i % 2 = 0 then 4 - j else j
  prow * 5 + pcol

/-- The inverse of R85. -/
def inv (p : Nat) : Nat × Nat :=
  let prow := p / 5
  let pcol := p % 5
  let i := 4 - prow
  let j := if i % 2 = 0 then 4 - pcol else pcol
  (i, j)

/-- All logical coordinates in DRAW's loop order: `for i in 0..4, for j in 0..4` (R12, R92). -/
def cells : List (Fin nRows × Fin nCols) :=
  (List.finRange nRows).flatMap fun i => (List.finRange nCols).map fun j => (i, j)

end Sys2Proof.Machine
end

