-- ==== Sys2Proof/Machine/State.lean ====
section
/-!
DEFINITION. The state of the block: every state element of R15 and R35, the input ports of R27, the output history of R13
and R148, and five fields of the model's own (log entries 3 and 5). All of it plain data.
-/

namespace Sys2Proof.Machine

/-- PHASE, the block's control state (R21). -/
inductive Phase where
  /-- After reset: the channel check, then the start-up idle gap (R136). -/
  | init
  /-- Waiting for a command. -/
  | idle
  /-- Performing CLEAR, WRITE_PIXEL, DRAW, MAP, the clear and draw of RENDER, or a refused command. -/
  | exec
  /-- Sending the 75 bytes of a frame. -/
  | stream
  /-- Holding the line idle for T_GAP after a frame. -/
  | gap
  /-- The fatal start-up condition; permanent until reset (R124). -/
  | fault
deriving DecidableEq, Repr

/-- The three channels of a pixel (R17), in the order of submission (R101). -/
inductive Chan where
  | g
  | r
  | b
deriving DecidableEq, Repr

/-- CUR (R25): pixel index k, 0 to 24, and channel c. -/
structure Cursor where
  k : Nat
  c : Chan
deriving DecidableEq, Repr

/-- An output event (R13). -/
inductive Event where
  /-- One 8-bit channel value sent on the serial line. -/
  | byte (v : Byte)
  /-- The idle gap of at least T_GAP that ends a frame. -/
  | latch
deriving DecidableEq, Repr

/-- The levels the host drives on the input ports (R27). The block reads them and never writes them. -/
structure PortIn where
  /-- Reset, active high (R134). -/
  rst : Bool
  /-- The host presents a command word (R70). -/
  cmdValid : Bool
  /-- The command word. -/
  cmd : Word
deriving DecidableEq, Repr

/-- The BUF byte space (R39): (address, byte) pairs in one canonical form, `Memory.wf`. -/
abbrev Memory := List Host.Cell

/-- What a BUF byte reads as when no pair lists it: BUF's reset value (R18; log entry 9). -/
def Memory.unlisted : Byte := 0x00#8

/-- The block, its input ports, and what it has put out so far. -/
structure State where
  /-- BUF, as bytes at addresses 0 to 74 (R17, R39 to R41). -/
  buf : Memory
  /-- PHASE (R21). -/
  phase : Phase
  /-- CUR (R25); `none` is R99's DONE. -/
  cur : Option Cursor
  /-- RESP (R28). -/
  resp : Word
  /-- RESP_VALID (R28). -/
  respValid : Bool
  /-- FIFO, oldest byte first (R29). -/
  fifo : List Byte
  /-- SHIFT (R30). -/
  shift : Byte
  /-- NBIT, the bits of SHIFT still to send (R30). -/
  nbit : Nat
  /-- GAPT, the gap timer in clock cycles (R31). -/
  gapt : Nat
  /-- The level driven on the serial line (R32). -/
  dout : Bool
  /-- The input ports (R27). -/
  port : PortIn
  /-- The output events so far (R13, R16). A history: reset does not take back what was sent (R135). -/
  events : List Event
  /-- The responses so far (R148). A history. -/
  responses : List Word
  /-- Model's own: the command word sampled at the acceptance edge, while that command is in progress (R70). -/
  job : Option Word
  /-- Model's own: cycles left of the EXEC time or of the emitter's start-up (R71, R113). -/
  wait : Nat
  /-- Model's own: cycles already spent in the current bit period (R107, R108). -/
  bitT : Nat
  /-- Model's own: the whole byte SHIFT is sending (R107). -/
  txByte : Byte
  /-- Model's own: frames begun; the counter that the free values of `Params` are drawn by. -/
  frames : Nat
deriving DecidableEq, Repr

/-- Why the machine stops. -/
inductive Fault where
  /-- Raised by `step` and `exec` in PHASE = FAULT with `rst` = 0: "a model must give it no step (stuck), not a response"
  (R124). Safe: the block itself does nothing there. -/
  | fatalStartUp
deriving DecidableEq, Repr

/-- Why a meaning is missing. -/
inductive Refusal where
  /-- Raised by an arm of `exec` that has no meaning yet; no arm raises it now. Safe: nothing is claimed. -/
  | notModelled (mnemonic : String)
deriving DecidableEq, Repr

/-- Every state element right after reset (R35), the input ports released (log entry 1), the histories empty
(log entry 2), the model's own fields at rest (log entry 3). -/
def State.reset : State where
  buf := []
  phase := .init
  cur := some ⟨0, .g⟩
  resp := 0x00000000#32
  respValid := false
  fifo := []
  shift := 0x00#8
  nbit := 0
  gapt := 0
  dout := false
  port := ⟨false, false, 0x00000000#32⟩
  events := []
  responses := []
  job := none
  wait := 0
  bitT := 0
  txByte := 0x00#8
  frames := 0

end Sys2Proof.Machine
end

