-- ==== Sys2Proof/Machine/Timing.lean ====
section
/-!
DEFINITION. The numbers the port and wire level counts by, computed from the OPEN parameters of R8. Every bound of R8
holds of them for every `Params`.
-/

namespace Sys2Proof

/-- T_GAP, in microseconds, as numerator and denominator: T_RESET_MIN or more (R8, R102). -/
def Params.tGap (P : Params) : Nat × Nat := (tResetMin * (P.gapDen + 1) + P.gapNum, P.gapDen + 1)
/-- F_CLK, in megahertz, as numerator and denominator: positive (R8). -/
def Params.fClk (P : Params) : Nat × Nat := (P.clkNum + 1, P.clkDen + 1)

/-- The least whole number at or above `n / d`, for `d > 0`. -/
def ceilDiv (n d : Nat) : Nat := (n + d - 1) / d

/-- ⌈T_GAP · F_CLK⌉: the cycles of the gap GAPT counts (R31, R103, R136). -/
def Params.gapCycles (P : Params) : Nat := ceilDiv (P.tGap.1 * P.fClk.1) (P.tGap.2 * P.fClk.2)

/-- T0H in cycles, at least 1 (R8, R108). -/
def Params.t0h (P : Params) : Nat := P.t0hExtra + 1
/-- T1H in cycles, more than T0H (R8, R108). -/
def Params.t1h (P : Params) : Nat := P.t0h + P.t1hExtra + 1
/-- T_BIT in cycles, more than T1H (R8, R108). -/
def Params.tBit (P : Params) : Nat := P.t1h + P.tBitExtra + 1
/-- The high time of a bit (R108). -/
def Params.high (P : Params) (bit : Bool) : Nat := if bit then P.t1h else P.t0h

/-- FIFO_DEPTH, at least 1 (R8, R29). -/
def Params.fifoDepth (P : Params) : Nat := P.fifoExtra + 1
/-- L_CMD, at least 1 (R8, R71). -/
def Params.lCmd (P : Params) : Nat := P.lCmdExtra + 1
/-- The cycles RENDER number `n` spends in EXEC, at least 1 (R22, R93; the count is a free value). -/
def Params.renderCycles (P : Params) (n : Nat) : Nat := P.renderExec n + 1

end Sys2Proof
end

