-- ==== Sys2Proof/Machine/Ops.lean ====
section
/-!
DEFINITION. The named operations over the two storage spaces (20_memory.md), the response (R68, R69), the reset of every
state element (R35, R135), and the one gate every command passes: acceptance (R70). The block has no exceptions to take
and none to return from (R125, R126): a refused command answers a response and changes nothing else (R122).
-/

namespace Sys2Proof.Machine

/-! ## The BUF byte space -/

/-- Insert a cell into a listing that does not hold its address, keeping addresses rising. -/
def Memory.insert (a : Nat) (v : Byte) : Memory → Memory
  | [] => [(a, v)]
  | c :: t => if c.1 < a then c :: Memory.insert a v t else (a, v) :: c :: t

/-- MemRead(BUF, a, 1) (R11, R41). No command forms an address outside 0..74 (R46; log entry 20). -/
def Memory.read : Memory → Nat → Byte
  | [], _ => Memory.unlisted
  | c :: t, a => if c.1 = a then c.2 else Memory.read t a

/-- MemWrite(BUF, a, 1, v) (R11). Writing what an unlisted byte reads as removes the entry. -/
def Memory.write (m : Memory) (a : Nat) (v : Byte) : Memory :=
  let rest := m.filter fun c => decide (c.1 ≠ a)
  if v = Memory.unlisted then rest else Memory.insert a v rest

/-- The canonical form: addresses strictly rising and inside the space (R39), no entry that reads as an unlisted byte. -/
def Memory.wf (m : Memory) : Bool :=
  decide (m.Pairwise fun a b => a.1 < b.1) && m.all fun c => decide (c.1 < nBytes) && decide (c.2 ≠ Memory.unlisted)

/-- A pixel of BUF (R10, R17). -/
structure Pixel where
  g : Byte
  r : Byte
  b : Byte
deriving DecidableEq, Repr

/-- A channel of a pixel by name (R17). -/
def Pixel.chan (x : Pixel) : Chan → Byte
  | .g => x.g
  | .r => x.r
  | .b => x.b

/-- The channel number of R41: 0 is g, 1 is r, 2 is b. -/
def Chan.index : Chan → Nat
  | .g => 0
  | .r => 1
  | .b => 2

/-- The byte address 3k + c of channel c of pixel k (R40, R41). -/
def chanAddr (k : Nat) (c : Chan) : Nat := nChan * k + c.index

/-- BUF[k] (R17, R41). -/
def Memory.pixel (m : Memory) (k : Nat) : Pixel :=
  ⟨m.read (chanAddr k .g), m.read (chanAddr k .r), m.read (chanAddr k .b)⟩

/-- BUF[k] <- x: the three channels as one unit (R48, R79). -/
def Memory.setPixel (m : Memory) (k : Nat) (x : Pixel) : Memory :=
  ((m.write (chanAddr k .g) x.g).write (chanAddr k .r) x.r).write (chanAddr k .b) x.b

/-- MemRead(BUF, a, 3): the byte at the lowest address is the most significant (R42, R45). -/
def Memory.read3 (m : Memory) (a : Nat) : BitVec 24 := m.read a ++ m.read (a + 1) ++ m.read (a + 2)

/-- The 24-bit pixel word of pixel k (R42). -/
def Memory.pixelWord (m : Memory) (k : Nat) : BitVec 24 := m.read3 (nChan * k)

/-- All 25 pixels (0,0,0): no byte listed (R18, R78). -/
def Memory.zero : Memory := []

/-! ## The glyph table as the ROM byte space -/

/-- A channel of a cell by R43's channel number: 0 is R, 1 is G, 2 is B. -/
def cellChan (x : Cell) (c : Nat) : Byte := if c = 0 then x.R else if c = 1 then x.G else x.B

/-- The bytes of the ROM space: 750 (R37, R43). -/
abbrev romBytes : Nat := nGlyphs * nRows * nCols * nChan

/-- The ROM byte address of the first byte of cell (i, j) of digit d: row-major, three bytes a cell (R43). -/
def cellAddr (d i j : Nat) : Nat := nChan * (nRows * nCols * d + nCols * i + j)

/-- MemRead(ROM, a, 1) (R11, R43): byte `cellAddr d i j + c` of the table. `none` outside 0..749. -/
def romRead (P : Params) (a : Nat) : Option Byte :=
  if h : a < romBytes then
    some (cellChan (P.glyph ⟨a / (nRows * nCols * nChan), Nat.div_lt_of_lt_mul (by simp only [romBytes] at h; omega)⟩
      ⟨a / (nCols * nChan) % nRows, Nat.mod_lt _ (by decide)⟩ ⟨a / nChan % nCols, Nat.mod_lt _ (by decide)⟩) (a % nChan))
  else none

/-- MemRead(ROM, a, 3) (R11, R44, R45): the byte at the lowest address is the most significant. -/
def romRead3 (P : Params) (a : Nat) : Option (BitVec 24) := do
  return (← romRead P a) ++ (← romRead P (a + 1)) ++ (← romRead P (a + 2))

/-- The cell in a 24-bit ROM word {R, G, B} (R44). -/
def Cell.ofWord (w : BitVec 24) : Cell := ⟨w.extractLsb' 16 8, w.extractLsb' 8 8, w.extractLsb' 0 8⟩

/-- A glyph cell as a buffer pixel: channels are copied by NAME (R44, R92). -/
def Cell.toPixel (x : Cell) : Pixel := ⟨x.G, x.R, x.B⟩

/-- The body of DRAW: all 25 cells through the mapper, in loop order (R92). -/
def Memory.draw (m : Memory) (G : Glyph) : Memory :=
  cells.foldl (fun m x => m.setPixel (phys x.1 x.2) (Cell.toPixel (G x.1 x.2))) m

/-- The cell shown at pixel k: the one at logical coordinate inv(k) (R85, R96). -/
def cellAt (G : Glyph) (k : Nat) : Cell := G (Fin.ofNat nRows (inv k).1) (Fin.ofNat nCols (inv k).2)

/-! ## Frames -/

/-- The 75 channel values of a frame: `for k in 0..24`, g then r then b (R97, R101). -/
def Memory.frame (m : Memory) : List Byte :=
  (List.range nPix).flatMap fun k => [(m.pixel k).g, (m.pixel k).r, (m.pixel k).b]

/-- A frame as output events: 75 Byte events, then one Latch (R13, R98). -/
def frameEvents (m : Memory) : List Event := m.frame.map Event.byte ++ [Event.latch]

/-- The 75 channel values of a digit's frame: G, R, B of the cell at each pixel in index order (R96). -/
def glyphFrame (G : Glyph) : List Byte :=
  (List.range nPix).flatMap fun k => [(cellAt G k).G, (cellAt G k).R, (cellAt G k).B]

/-- Clear BUF (body of R78). -/
def State.clearBuf (s : State) : State := { s with buf := Memory.zero }

/-- Draw digit d (body of R92). -/
def State.drawDigit (P : Params) (d : Fin nGlyphs) (s : State) : State := { s with buf := s.buf.draw (P.glyph d) }

/-- Emit BUF as one whole frame (body of R97): when the response is given the gap has passed, so GAPT has reached
⌈T_GAP · F_CLK⌉ (R54, R103). One more frame is counted. -/
def State.emitFrame (P : Params) (s : State) : State :=
  { s with events := s.events ++ frameEvents s.buf, gapt := P.gapCycles, frames := s.frames + 1 }

/-! ## The response -/

/-- The status codes of R69. -/
inductive Status where
  | ok
  | outOfRange
  | illegal
deriving DecidableEq, Repr

/-- The code of a status (R69). -/
def Status.code : Status → Byte
  | .ok => 0x00#8
  | .outOfRange => 0x01#8
  | .illegal => 0x02#8

/-- The response word: 19 zero bits, 5 data bits, 8 status bits (R68). -/
def responseWord (st : Status) (data : Nat) : Word := 0#19 ++ BitVec.ofNat 5 data ++ st.code

/-- `respond(status, data)`: RESP takes the word and RESP_VALID becomes 1 (R11, R71). -/
def State.respond (st : Status) (data : Nat) (s : State) : State :=
  { s with resp := responseWord st data, respValid := true, responses := s.responses ++ [responseWord st data] }

/-- `raise status()`: no state written, no event; the response carries the status and data 0 (R11, R122). -/
def State.refuse (st : Status) (s : State) : State := s.respond st 0

/-! ## Reset -/

/-- Every state element at its reset value (R35, R135). The input ports are the host's; what was sent stays sent; the
counter of the free values goes on, so that a later frame draws afresh. -/
def State.inReset (s : State) : State :=
  { State.reset with port := s.port, events := s.events, responses := s.responses, frames := s.frames }

/-! ## Acceptance -/

/-- cmd_ready: 1 exactly when PHASE = IDLE and rst = 0 (R70). -/
def State.cmdReady (s : State) : Bool := decide (s.phase = .idle) && !s.port.rst

/-- A command handed to the block. With cmd_ready = 1 it is accepted and is one atomic step (R6, R73). In FAULT there is no
step (R124). In every other phase, and under reset, the block ignores it: nothing changes (R70, R140; log entry 17). -/
def accept (s : State) (body : State → State) : Host.Outcome State Fault Refusal :=
  if s.cmdReady then .next (body s)
  else if s.phase = .fault ∧ s.port.rst = false then .fault .fatalStartUp
  else .next s

end Sys2Proof.Machine
end

