-- ==== Sys2Proof/Machine/Emission.lean ====
section
/-!
DEFINITION. EMIT at the transaction level (43_stream.md section 1). The streamer and the wire are in Wire.lean.
-/

namespace Sys2Proof.Machine

/-- EMIT's pseudocode (R97). -/
def doEmit (P : Params) (s : State) : State := (s.emitFrame P).respond .ok 0

/-- The meaning of EMIT. -/
def execEmit (s : State) : Host.Outcome State Fault Refusal := accept s (doEmit Config.params)

end Sys2Proof.Machine
end

