-- ==== Sys2Proof/Machine/PixelBuffer.lean ====
section
/-!
DEFINITION. The pixel buffer commands CLEAR and WRITE_PIXEL (41_buffer_ops.md). For each command: its pseudocode as a
function of the state of an IDLE block, and its meaning, which is that pseudocode behind acceptance.
-/

namespace Sys2Proof.Machine

/-- CLEAR's pseudocode (R78). -/
def doClear (s : State) : State := s.clearBuf.respond .ok 0

/-- WRITE_PIXEL's pseudocode (R79): the index is checked before the one 3-byte write. -/
def doWritePixel (p : Nat) (g r b : Byte) (s : State) : State :=
  if pixelInRange p then State.respond .ok 0 { s with buf := s.buf.setPixel p ⟨g, r, b⟩ }
  else s.refuse .outOfRange

/-- The meaning of CLEAR. -/
def execClear (s : State) : Host.Outcome State Fault Refusal := accept s doClear

/-- The meaning of WRITE_PIXEL. -/
def execWritePixel (p : Nat) (g r b : Byte) (s : State) : Host.Outcome State Fault Refusal :=
  accept s (doWritePixel p g r b)

end Sys2Proof.Machine
end

