-- ==== Sys2Proof/Machine/Renderer.lean ====
section
/-!
DEFINITION. The renderer's commands MAP, DRAW and RENDER (42_renderer.md).
-/

namespace Sys2Proof.Machine

/-- MAP's pseudocode (R91). -/
def doMap (i j : Nat) (s : State) : State :=
  if coordInRange i j then s.respond .ok (phys i j) else s.refuse .outOfRange

/-- DRAW's pseudocode (R92): the digit is checked before the lookup (R90). -/
def doDraw (P : Params) (d : Nat) (s : State) : State :=
  match digit? d with
  | none => s.refuse .outOfRange
  | some d => (s.drawDigit P d).respond .ok 0

/-- RENDER's pseudocode (R93): the digit is checked before any write; then clear, draw, emit, clear, in that order
(R94). -/
def doRender (P : Params) (d : Nat) (s : State) : State :=
  match digit? d with
  | none => s.refuse .outOfRange
  | some d => ((s.clearBuf.drawDigit P d).emitFrame P).clearBuf.respond .ok 0

/-- The meaning of MAP. -/
def execMap (i j : Nat) (s : State) : Host.Outcome State Fault Refusal := accept s (doMap i j)

/-- The meaning of DRAW. -/
def execDraw (d : Nat) (s : State) : Host.Outcome State Fault Refusal := accept s (doDraw Config.params d)

/-- The meaning of RENDER. -/
def execRender (d : Nat) (s : State) : Host.Outcome State Fault Refusal := accept s (doRender Config.params d)

end Sys2Proof.Machine
end

