-- ==== Sys2Proof/Syntax.lean ====
section
/-!
DEFINITION. The six commands of the block (R61), one constructor per row of spec/opcode_table.json.
-/

namespace Sys2Proof

/-- A command, with its operands as R66 assembles them: indices, digits and coordinates are unsigned numbers, channel
values are u8. Any number may stand in a term; `Instr.wf` says which fit their fields. -/
inductive Instr where
  /-- CLEAR (R78): set all 25 pixels to (0,0,0). -/
  | clear
  /-- WRITE_PIXEL p, g, r, b (R79): write one pixel at physical index p. -/
  | writePixel (p : Nat) (g r b : Byte)
  /-- DRAW d (R92): write digit d's glyph into the buffer through the serpentine mapper. -/
  | draw (d : Nat)
  /-- EMIT (R97): send the buffer as one frame, then hold the idle gap. -/
  | emit
  /-- RENDER d (R93): clear, draw, emit, clear. -/
  | render (d : Nat)
  /-- MAP i, j (R91): answer the physical index of logical row i, column j. -/
  | map (i j : Nat)
deriving DecidableEq, Repr

end Sys2Proof
end

