-- ==== Sys2Proof/Machine/Dispatch.lean ====
section
/-!
DEFINITION. One arm per command (R73).
-/

namespace Sys2Proof.Machine

def exec (i : Instr) (s : State) : Host.Outcome State Fault Refusal :=
  match i with
  | .clear => Sys2Proof.Machine.execClear s
  | .writePixel p g r b => Sys2Proof.Machine.execWritePixel p g r b s
  | .draw d => Sys2Proof.Machine.execDraw d s
  | .emit => Sys2Proof.Machine.execEmit s
  | .render d => Sys2Proof.Machine.execRender d s
  | .map row col => Sys2Proof.Machine.execMap row col s

end Sys2Proof.Machine
end

