-- ==== Sys2Proof/Machine/Flags.lean ====
section
/-!
DEFINITION. The block's output ports (R27) and its two status flags (R23). The block has no condition codes: no command
sets a flag but through PHASE.
-/

namespace Sys2Proof.Machine

/-- `busy`: 1 when PHASE is INIT, EXEC, STREAM or GAP (R23). -/
def State.busy (s : State) : Bool :=
  match s.phase with
  | .init => true
  | .idle => false
  | .exec => true
  | .stream => true
  | .gap => true
  | .fault => false

/-- `fault`: 1 when PHASE = FAULT (R23). -/
def State.faultFlag (s : State) : Bool := decide (s.phase = .fault)

/-- The output ports of R27. -/
structure PortOut where
  cmdReady : Bool
  respValid : Bool
  resp : Word
  busy : Bool
  fault : Bool
  dout : Bool
deriving DecidableEq, Repr

/-- The levels on the output ports. While `rst` = 1 every state element holds its reset value, at once (R134, R135; log
entry 19). -/
def State.out (s : State) : PortOut :=
  let v := if s.port.rst then s.inReset else s
  { cmdReady := s.cmdReady, respValid := v.respValid, resp := v.resp, busy := v.busy, fault := v.faultFlag, dout := v.dout }

end Sys2Proof.Machine
end

