-- ==== Sys2Proof/WellFormed.lean ====
section
/-!
DEFINITION. Which terms of `Instr` are commands: each operand fits its field (R63 to R65, R74). An operand that fits but
is outside its VALID range (p of 25 to 31, d of 10 to 15, i or j of 5 to 15) is well-formed: the block answers it with
OUT_OF_RANGE at run time.
-/

namespace Sys2Proof

/-- Every operand fits its field: p in 0..31, d in 0..15, i and j in 0..15 (R63, R64, R65). -/
def Instr.wf : Instr → Bool
  | .clear => true
  | .writePixel p _ _ _ => decide (p < 32)
  | .draw d => decide (d < 16)
  | .emit => true
  | .render d => decide (d < 16)
  | .map i j => decide (i < 16) && decide (j < 16)

end Sys2Proof
end

