-- ==== Sys2Proof/Decode.lean ====
section
/-!
DEFINITION. The command decoder, total over all 32-bit words (R72), and after it the encoder, written from the same
formats (R62 to R65).
-/

namespace Sys2Proof

/-- Why a word encodes no command (R67). Both reasons give the same status ILLEGAL (R119). -/
inductive Illegal where
  /-- op is 0b000 or 0b111. -/
  | reservedOpcode
  /-- A bit of a reserved field of R62, R64 or R65 is 1. -/
  | reservedBits
deriving DecidableEq, Repr

/-- `op = W[31:29]` (R60). -/
def opcode (w : Word) : BitVec 3 := w.extractLsb' 29 3

/-- The decode function of R72. -/
def decode (w : Word) : Except Illegal Instr :=
  if opcode w = 0b001#3 then
    if w.extractLsb' 0 29 = 0 then .ok .clear else .error .reservedBits
  else if opcode w = 0b010#3 then
    .ok (.writePixel (w.extractLsb' 24 5).toNat (w.extractLsb' 16 8) (w.extractLsb' 8 8) (w.extractLsb' 0 8))
  else if opcode w = 0b011#3 then
    if w.extractLsb' 4 25 = 0 then .ok (.draw (w.extractLsb' 0 4).toNat) else .error .reservedBits
  else if opcode w = 0b100#3 then
    if w.extractLsb' 0 29 = 0 then .ok .emit else .error .reservedBits
  else if opcode w = 0b101#3 then
    if w.extractLsb' 4 25 = 0 then .ok (.render (w.extractLsb' 0 4).toNat) else .error .reservedBits
  else if opcode w = 0b110#3 then
    if w.extractLsb' 8 21 = 0 then .ok (.map (w.extractLsb' 4 4).toNat (w.extractLsb' 0 4).toNat)
    else .error .reservedBits
  else .error .reservedOpcode

/-- Format Z: an opcode and no operand (R62). -/
def formatZ (op : BitVec 3) : Word := op ++ 0#29
/-- Format P: pixel index and colour (R63). -/
def formatP (op : BitVec 3) (p : Nat) (g r b : Byte) : Word := op ++ BitVec.ofNat 5 p ++ g ++ r ++ b
/-- Format D: a digit (R64). -/
def formatD (op : BitVec 3) (d : Nat) : Word := op ++ 0#25 ++ BitVec.ofNat 4 d
/-- Format C: a coordinate (R65). -/
def formatC (op : BitVec 3) (i j : Nat) : Word := op ++ 0#21 ++ BitVec.ofNat 4 i ++ BitVec.ofNat 4 j

/-- The word of a well-formed command (R61 to R65, R74). -/
def encode : Instr → Word
  | .clear => formatZ 0b001#3
  | .writePixel p g r b => formatP 0b010#3 p g r b
  | .draw d => formatD 0b011#3 d
  | .emit => formatZ 0b100#3
  | .render d => formatD 0b101#3 d
  | .map i j => formatC 0b110#3 i j

/-- The command this decoder reads from an opcode-table word of `nbits` bits (the command port carries the word whole, so
there is no byte order: R59, R76). A number that does not fit 32 bits is no command word. -/
def decodeTableWord (nbits w : Nat) : Option Instr :=
  if w % 2 ^ nbits < 2 ^ 32 then (decode (BitVec.ofNat 32 (w % 2 ^ nbits))).toOption else none

end Sys2Proof
end

