-- ==== Sys2Proof/Machine/Transaction.lean ====
section
/-!
DEFINITION. The transaction-level step of R73 as a function of a command word, over any parameters: what the port and wire
level is held against. `exec` and `step` are this function at the block's own parameters.
-/

namespace Sys2Proof.Machine

/-- An ILLEGAL word (R67, R119): the response is its only effect. -/
def doIllegal (s : State) : State := s.refuse .illegal

/-- The meaning of an ILLEGAL word presented to the block. -/
def execIllegal (s : State) : Host.Outcome State Fault Refusal := accept s doIllegal

/-- The pseudocode of a decoded command (R73). -/
def perform (P : Params) : Instr → State → State
  | .clear => doClear
  | .writePixel p g r b => doWritePixel p g r b
  | .draw d => doDraw P d
  | .emit => doEmit P
  | .render d => doRender P d
  | .map i j => doMap i j

/-- Step(S, W) of R73, for an IDLE block. -/
def transact (P : Params) (w : Word) (s : State) : State :=
  match decode w with
  | .error _ => doIllegal s
  | .ok i => perform P i s

end Sys2Proof.Machine
end

