-- ==== Sys2Proof/Machine/Wire.lean ====
section
/-!
DEFINITION. The port and wire level (R6): one rising edge of `clk`. The handshake (R70, R71), the phases (R21, R22), INIT
(R136), the streamer's emitter, FIFO and serializer (R104 to R112), the gap (R103, R111) and reset (R134, R135). Every
function takes the OPEN parameters as an argument.
-/

namespace Sys2Proof.Machine

/-! ## The stream cursor and the emitter -/

/-- On entry to STREAM, CUR = (0, 0) (R99). -/
def Cursor.start : Cursor := ⟨0, .g⟩

/-- The advance rule of R99; `none` is DONE, with no wrap to (0, 0). -/
def Cursor.advance (x : Cursor) : Option Cursor :=
  match x.c with
  | .g => some ⟨x.k, .r⟩
  | .r => some ⟨x.k, .b⟩
  | .b => if x.k + 1 < nPix then some ⟨x.k + 1, .g⟩ else none

/-- The BUF byte address at the cursor, 3k + c (R41). -/
def Cursor.addr (x : Cursor) : Nat := chanAddr x.k x.c

/-- One `send` of the emitter (R105): the byte at CUR enters FIFO behind the others and CUR advances. -/
def State.send (x : Cursor) (s : State) : State :=
  { s with fifo := s.fifo ++ [s.buf.read x.addr], cur := x.advance }

/-! ## The serializer -/

/-- The serializer takes a byte into SHIFT and sets NBIT = 8 (R107); the bit period begins. -/
def State.load (v : Byte) (rest : List Byte) (s : State) : State :=
  { s with fifo := rest, shift := v, txByte := v, nbit := chanBits, bitT := 0 }

/-- The 600th bit period of a frame has ended: GAP, with GAPT restarted (R103, R111). DESIGN CHOICE: CUR goes back to (0, 0)
(log entry 13). -/
def State.endFrame (s : State) : State :=
  { s with phase := .gap, gapt := 0, cur := some Cursor.start, txByte := 0x00#8 }

/-- The eighth bit period of a byte has ended: the byte is sent. The next byte follows with no pause (R110); after the last
one the frame ends; with bytes still to come but none in FIFO the serializer waits (R107), which R110 excludes. DEDUCED: the
next byte is loaded at the edge that ends the last bit (log entry 10). DESIGN CHOICE: the Byte event is recorded here (log
entry 11). -/
def State.endByte (s : State) : State :=
  let s := { s with events := s.events ++ [Event.byte s.txByte] }
  match s.fifo with
  | v :: rest => s.load v rest
  | [] =>
    match s.cur with
    | none => s.endFrame
    | some _ => { s with txByte := 0x00#8 }

/-- A bit period has ended: SHIFT shifts left by one and NBIT counts down (R107). -/
def State.endBit (s : State) : State :=
  let s := { s with shift := s.shift <<< 1, nbit := s.nbit - 1, bitT := 0 }
  if s.nbit = 0 then s.endByte else s

/-- The serializer at one edge (R107, R108). -/
def serializerEdge (P : Params) (s : State) : State :=
  if s.nbit = 0 then
    match s.fifo with
    | [] => s
    | v :: rest => s.load v rest
  else if s.bitT + 1 < P.tBit then { s with bitT := s.bitT + 1 }
  else s.endBit

/-- STREAM at one edge: the emitter's start-up cycles, then emitter and serializer side by side. Whether FIFO has room is
read before the edge (R105): a full FIFO makes the emitter wait with the same byte. -/
def streamEdge (P : Params) (s : State) : State :=
  if 0 < s.wait then { s with wait := s.wait - 1 }
  else
    match s.cur with
    | some x => if s.fifo.length < P.fifoDepth then (serializerEdge P s).send x else serializerEdge P s
    | none => serializerEdge P s

/-! ## Commands at the port -/

/-- Enter STREAM for one frame (R22, R99), with the start-up cycles of the frame, which acceptance has
counted (S4). -/
def State.enterStream (P : Params) (s : State) : State :=
  { s with phase := .stream, cur := some Cursor.start, wait := P.startup (s.frames - 1) }

/-- Enter EXEC for `n` cycles (R22, R71). -/
def State.enterExec (n : Nat) (s : State) : State := { s with phase := .exec, wait := n }

/-- The command in progress is over: PHASE becomes IDLE (R71). -/
def State.retire (s : State) : State := { s with phase := .idle, job := none, wait := 0 }

/-- What a command word makes the block do (R22): most commands are over in EXEC, refused ones too; EMIT streams; RENDER of
a digit 0 to 9 clears and draws in EXEC and then streams. -/
inductive Job where
  | short
  | emit
  | render (d : Fin nGlyphs)
deriving DecidableEq, Repr

/-- The job of a command word. -/
def jobOf (w : Word) : Job :=
  match decode w with
  | .error _ => .short
  | .ok .clear => .short
  | .ok (.writePixel _ _ _ _) => .short
  | .ok (.draw _) => .short
  | .ok .emit => .emit
  | .ok (.render d) =>
    match digit? d with
    | none => .short
    | some d => .render d
  | .ok (.map _ _) => .short

/-- The acceptance edge: `cmd` is sampled, PHASE leaves IDLE (R70, R22). A valid EMIT streams at once; a valid RENDER first
clears and draws in EXEC; everything else takes L_CMD cycles in EXEC (R71). A frame is counted here, so that a frame after
one that reset cut short draws its free values afresh. -/
def acceptEdge (P : Params) (s : State) : State :=
  let s' := { s with job := some s.port.cmd }
  match jobOf s.port.cmd with
  | .short => s'.enterExec P.lCmd
  | .emit => { s' with frames := s.frames + 1 }.enterStream P
  | .render _ => { s' with frames := s.frames + 1 }.enterExec (P.renderCycles s.frames)

/-- The last EXEC edge of the word `w`: a valid RENDER has cleared and drawn, and streams (R93); any other command has its
effect and its response (R71). DESIGN CHOICE: the effect lands at this edge (log entry 21). -/
def completeExec (P : Params) (w : Word) (s : State) : State :=
  match jobOf w with
  | .short => (transact P w s).retire
  | .emit => (transact P w s).retire
  | .render d => (s.clearBuf.drawDigit P d).enterStream P

/-- EXEC at one edge: the last cycle completes the command in progress. -/
def execEdge (P : Params) (s : State) : State :=
  if s.wait ≤ 1 then
    match s.job with
    | some w => completeExec P w s
    | none => s.retire
  else { s with wait := s.wait - 1 }

/-- The gap has passed: Latch, RENDER's final clear (R93, R103), the response. DESIGN CHOICE: the Latch event is recorded
here (log entry 11). -/
def finishFrame (s : State) : State :=
  let t := { s with events := s.events ++ [Event.latch] }
  let u :=
    match s.job.map jobOf with
    | some (.render _) => t.clearBuf
    | some .emit => t
    | some .short => t
    | none => t
  (u.respond .ok 0).retire

/-- GAP at one edge: GAPT counts, and at ⌈T_GAP · F_CLK⌉ the frame is finished (R103). -/
def gapEdge (P : Params) (s : State) : State :=
  if s.gapt + 1 < P.gapCycles then { s with gapt := s.gapt + 1 } else finishFrame { s with gapt := P.gapCycles }

/-- INIT at one edge (R123, R136). DEDUCED: GAPT counts in INIT and GAP only (log entry 22). -/
def initEdge (P : Params) (s : State) : State :=
  if P.channelOk = false then { s with phase := .fault }
  else if s.gapt + 1 < P.gapCycles then { s with gapt := s.gapt + 1 }
  else { s with gapt := P.gapCycles, phase := .idle }

/-! ## The edge -/

/-- What PHASE does at one edge with rst = 0 (R22). -/
def phaseEdge (P : Params) (s : State) : State :=
  match s.phase with
  | .init => initEdge P s
  | .idle => if s.port.cmdValid then acceptEdge P s else s
  | .exec => execEdge P s
  | .stream => streamEdge P s
  | .gap => gapEdge P s
  | .fault => s

/-- The level of `dout`: high for T1H or T0H from the start of a bit period, by the bit SHIFT[7]; low otherwise
(R32, R107 to R109). -/
def lineLevel (P : Params) (s : State) : Bool :=
  decide (s.phase = .stream) && decide (0 < s.nbit) && decide (s.bitT < P.high s.shift.msb)

/-- One rising edge of `clk` at the input levels `s.port`. RESP_VALID lasts one cycle (R71). -/
def clockEdge (P : Params) (s : State) : State :=
  if s.port.rst then s.inReset
  else
    let t := phaseEdge P { s with respValid := false }
    { t with dout := lineLevel P t }

/-- One edge at given input levels. -/
def clockWith (P : Params) (s : State) (i : PortIn) : State := clockEdge P { s with port := i }

/-- Many edges, one list entry each. -/
def cycles (P : Params) (s : State) (ins : List PortIn) : State := ins.foldl (clockWith P) s

/-- The level of `dout` after each edge. -/
def lineTrace (P : Params) (s : State) : List PortIn → List Bool
  | [] => []
  | i :: is => (clockWith P s i).dout :: lineTrace P (clockWith P s i) is

/-! ## What a frame looks like on the wire -/

/-- A byte's bits in the order they are sent: most significant first (R107, R112). -/
def bitsOf (v : Byte) : List Bool := (List.range chanBits).map fun n => v.getMsbD n

/-- The waveform of one bit: high T1H or T0H, then low, T_BIT in all (R108). -/
def waveform (P : Params) (bit : Bool) : List Bool :=
  List.replicate (P.high bit) true ++ List.replicate (P.tBit - P.high bit) false

/-- The waveform of a frame's bytes: 600 bit periods with no pause (R110, R112, R113). -/
def frameWaveform (P : Params) (m : Memory) : List Bool := (m.frame.flatMap bitsOf).flatMap (waveform P)

/-- The bytes of the frame in progress that have not left the line: the one in SHIFT, those in FIFO, those the emitter has
still to offer (R105 to R107). -/
def State.pending (s : State) : List Byte :=
  if s.phase = .stream then
    (if s.nbit = 0 then [] else [s.txByte]) ++ s.fifo ++
      (match s.cur with
       | some x => s.buf.frame.drop x.addr
       | none => [])
  else []

/-! ## The clock as the outcome of a step -/

/-- One step of the block when no command is accepted: a clock edge; in FAULT there is none (R124), but reset leaves it (log
entry 16). -/
def tick (P : Params) (s : State) : Host.Outcome State Fault Refusal :=
  if s.phase = .fault ∧ s.port.rst = false then .fault .fatalStartUp else .next (clockEdge P s)

end Sys2Proof.Machine
end

