-- ==== Sys2Proof/Machine/Fetch.lean ====
section
/-!
DEFINITION. How a command word reaches the block. There is no program and no program counter (R25, R137): the host presents
one word at the command port (R70).
-/

namespace Sys2Proof.Machine

/-- The command word accepted at this step, if any: cmd_valid = 1 and cmd_ready = 1 (R70). -/
def accepted? (s : State) : Option Word := if s.cmdReady && s.port.cmdValid then some s.port.cmd else none

/-- The host presents the word `w`, with rst = 0 (R139). -/
def State.present (w : Word) (s : State) : State := { s with port := ⟨false, true, w⟩ }

/-- The host presents nothing, with rst = 0. -/
def State.release (s : State) : State := { s with port := { s.port with rst := false, cmdValid := false } }

/-- The block as INIT leaves it with CHANNEL_OK = true: IDLE, with GAPT at ⌈T_GAP · F_CLK⌉ (R34, R136). -/
def State.afterInit (P : Params) (s : State) : State := { s with phase := .idle, gapt := P.gapCycles }

/-- The block waiting in IDLE with the opcode-table word `w` of `nbits` bits at its command port. -/
def State.presentTableWord (P : Params) (s : State) (nbits w : Nat) : State :=
  (s.afterInit P).present (BitVec.ofNat 32 (w % 2 ^ nbits))

end Sys2Proof.Machine
end

