-- ==== Sys2Proof/Machine/Step.lean ====
section
/-!
DEFINITION. One step of the block. A command accepted at the port is one whole transaction (R6, R73): `exec` of the decoded
command, or ILLEGAL. Every other step is one clock edge: reset, INIT, an IDLE cycle without a command, and the cycles of
EXEC, STREAM and GAP, which a run of steps from IDLE never stands in (R16). In FAULT there is no step (R124). DESIGN CHOICE: the two grains of a step (log entries 7, 8, 15).
-/

namespace Sys2Proof.Machine

def step (s : State) : Host.Outcome State Fault Refusal :=
  match accepted? s with
  | none => tick Config.params s
  | some w =>
    match decode w with
    | .error _ => execIllegal s
    | .ok i => exec i s

def State.withFetchWord (s : State) (nbits w : Nat) : State := s.presentTableWord Config.params nbits w

end Sys2Proof.Machine
end

