-- ==== Sys2Proof/Machine/Assembler.lean ====
section
/-!
DEFINITION. The assembler of R74 and the pseudo-instructions of R75. Tooling around the command set (D34): the block never
sees a line of text. Lines are lists of characters, so that Lean's kernel can evaluate a line.
-/

namespace Sys2Proof.Machine

/-- A line of assembly with its operands as numbers. -/
inductive AsmLine where
  | clear
  | writePixel (p g r b : Nat)
  | draw (d : Nat)
  | emit
  | render (d : Nat)
  | map (i j : Nat)
  /-- `.word w`: any word. -/
  | word (w : Nat)
  /-- CLEAR then EMIT. -/
  | blank
  /-- WRITE_PIXEL at phys(i, j). -/
  | plot (i j g r b : Nat)
  /-- 25 WRITE_PIXEL commands. -/
  | fill (g r b : Nat)
deriving DecidableEq, Repr

/-- Why no word is produced (R74, R75). -/
inductive AsmError where
  /-- An operand does not fit its field. -/
  | operandTooLarge
  /-- PLOT outside the 5 x 5 grid. -/
  | outsideGrid
  /-- The line is none of the forms of R74 and R75. -/
  | badLine
deriving DecidableEq, Repr

/-- A channel operand: 0 to 255 (R74). -/
def channelOperand (v : Nat) : Except AsmError Byte :=
  if v < 2 ^ chanBits then .ok (BitVec.ofNat chanBits v) else .error .operandTooLarge

/-- One command, if its operands fit their fields (R74). -/
def assembleInstr (i : Instr) : Except AsmError Word := if i.wf then .ok (encode i) else .error .operandTooLarge

/-- One WRITE_PIXEL with numbers for channels (R74). -/
def assemblePixel (p g r b : Nat) : Except AsmError Word := do
  assembleInstr (.writePixel p (← channelOperand g) (← channelOperand r) (← channelOperand b))

/-- The words of a line, in order (R74, R75). -/
def assembleLine : AsmLine → Except AsmError (List Word)
  | .clear => do return [← assembleInstr .clear]
  | .writePixel p g r b => do return [← assemblePixel p g r b]
  | .draw d => do return [← assembleInstr (.draw d)]
  | .emit => do return [← assembleInstr .emit]
  | .render d => do return [← assembleInstr (.render d)]
  | .map i j => do return [← assembleInstr (.map i j)]
  | .word w => if w < 2 ^ 32 then .ok [BitVec.ofNat 32 w] else .error .operandTooLarge
  | .blank => do return [← assembleInstr .clear, ← assembleInstr .emit]
  | .plot i j g r b =>
    if coordInRange i j then do return [← assemblePixel (phys i j) g r b] else .error .outsideGrid
  | .fill g r b => (List.range nPix).mapM fun k => assemblePixel k g r b

/-- The words of a program, line by line. -/
def assemble (lines : List AsmLine) : Except AsmError (List Word) := do
  return (← lines.mapM assembleLine).flatten

/-! ## The text of a line -/

/-- The text before a `;` (R74). -/
def dropComment (cs : List Char) : List Char := cs.takeWhile (· ≠ ';')

/-- A character that separates the mnemonic and the operands: blank, tab or comma (log entry 12). -/
def isSeparator (c : Char) : Bool := c = ' ' || c = '\t' || c = ','

/-- The words of a line, cut at separators. -/
def tokens : List Char → List (List Char)
  | [] => []
  | c :: cs =>
    if isSeparator c then tokens cs
    else
      match cs with
      | [] => [[c]]
      | d :: _ =>
        if isSeparator d then [c] :: tokens cs
        else
          match tokens cs with
          | [] => [[c]]
          | t :: ts => (c :: t) :: ts

/-- The value of one digit, below 16. -/
def digitValue (c : Char) : Option Nat :=
  if '0' ≤ c ∧ c ≤ '9' then some (c.toNat - 48)
  else if 'a' ≤ c ∧ c ≤ 'f' then some (c.toNat - 87)
  else if 'A' ≤ c ∧ c ≤ 'F' then some (c.toNat - 55)
  else none

/-- The digits of a number in a base, most significant first. -/
def digits (base : Nat) (acc : Nat) : List Char → Option Nat
  | [] => some acc
  | c :: cs =>
    match digitValue c with
    | some v => if v < base then digits base (acc * base + v) cs else none
    | none => none

/-- A number: decimal, or hexadecimal after `0x` (R74). -/
def number : List Char → Option Nat
  | [] => none
  | ['0', 'x'] => none
  | '0' :: 'x' :: cs => digits 16 0 cs
  | c :: cs => digits 10 0 (c :: cs)

/-- One line of text: `none` for a line with nothing but blanks and a comment (R74, R75). -/
def parseLine (cs : List Char) : Except AsmError (Option AsmLine) :=
  match tokens (dropComment cs) with
  | [] => .ok none
  | name :: operands =>
    match operands.mapM number with
    | none => .error .badLine
    | some ns =>
      if name = ['C', 'L', 'E', 'A', 'R'] ∧ ns = [] then .ok (some .clear)
      else if name = ['E', 'M', 'I', 'T'] ∧ ns = [] then .ok (some .emit)
      else if name = ['B', 'L', 'A', 'N', 'K'] ∧ ns = [] then .ok (some .blank)
      else
        match ns with
        | [x] =>
          if name = ['D', 'R', 'A', 'W'] then .ok (some (.draw x))
          else if name = ['R', 'E', 'N', 'D', 'E', 'R'] then .ok (some (.render x))
          else if name = ['.', 'w', 'o', 'r', 'd'] then .ok (some (.word x))
          else .error .badLine
        | [i, j] => if name = ['M', 'A', 'P'] then .ok (some (.map i j)) else .error .badLine
        | [g, r, b] => if name = ['F', 'I', 'L', 'L'] then .ok (some (.fill g r b)) else .error .badLine
        | [p, g, r, b] =>
          if name = ['W', 'R', 'I', 'T', 'E', '_', 'P', 'I', 'X', 'E', 'L'] then .ok (some (.writePixel p g r b))
          else .error .badLine
        | [i, j, g, r, b] =>
          if name = ['P', 'L', 'O', 'T'] then .ok (some (.plot i j g r b)) else .error .badLine
        | _ => .error .badLine

end Sys2Proof.Machine
end

