-- ==== Sys2Proof/Machine/Receiver.lean ====
section
/-!
DEFINITION. How to read the block's output (R116, informative): which colours the strip shows after a Latch. The block does
not implement the strip and reads nothing back from it (R115; log entry 14).
-/

namespace Sys2Proof.Machine

/-- The bytes a Latch ended, newest frame last; `acc` holds those not latched yet. -/
def latchedFrames : List Event → List Byte → List (List Byte)
  | [], _ => []
  | .byte v :: es, acc => latchedFrames es (acc ++ [v])
  | .latch :: es, acc => acc :: latchedFrames es []

/-- The 75 bytes a Latch shows: the last 75 sent before it. Bytes of a frame that reset cut short may stand before them
(R142). -/
def shownBytes (bytes : List Byte) : List Byte := bytes.drop (bytes.length - nBytes)

/-- The colour of the LED at strip position k, by bytes 3k to 3k + 2 of a frame (R116). -/
def ledColour (frame : List Byte) (k : Nat) : Pixel :=
  ⟨frame.getD (chanAddr k .g) 0, frame.getD (chanAddr k .r) 0, frame.getD (chanAddr k .b) 0⟩

/-- What the last Latch of an output made the strip show: one pixel for each position, or `none` before any Latch. -/
def strip (es : List Event) : Option (List Pixel) :=
  (latchedFrames es []).getLast?.map fun bytes => (List.range nPix).map (ledColour (shownBytes bytes))

/-! ## The strip beside the clock -/

/-- A strip, watched edge by edge: what its LEDs show, and how often that became any value. -/
structure Strip where
  leds : List Pixel
  draws : Nat
deriving DecidableEq, Repr

/-- Every LED at any value: what S1 says of a reset in the middle of a frame (R142). -/
def Strip.unknown (P : Params) (n : Nat) : Strip :=
  ⟨(List.range nPix).map fun k => Cell.toPixel (P.ledAfterCut n k), n + 1⟩

/-- The strip when the power comes on: the spec says nothing of it, so any value (log entry 14). -/
def Strip.powerUp (P : Params) : Strip := Strip.unknown P 0

/-- The strip over one edge of the block from `s` to `t`: a reset before the frame in progress has had its Latch leaves any
value (R142, S1; a reset in GAP is taken the same way, log entry 14); a Latch shows the frame just sent; otherwise the strip
shows what it showed, until the next Latch (R116). -/
def Strip.edge (P : Params) (s t : State) (v : Strip) : Strip :=
  if (s.phase = .stream ∨ s.phase = .gap) ∧ t.phase = .init then Strip.unknown P v.draws
  else if t.events = s.events then v
  else if t.events.getLast? = some Event.latch then { v with leds := (strip t.events).getD v.leds }
  else v

/-- Block and strip over many edges. -/
def watch (P : Params) (y : State × Strip) (ins : List PortIn) : State × Strip :=
  ins.foldl (fun y i => (clockWith P y.1 i, y.2.edge P y.1 (clockWith P y.1 i))) y

end Sys2Proof.Machine
end

