-- ==== Sys2Proof/Machine/RefHost.lean ====
section
/-!
DEFINITION. The host reference model (70_reset_and_hazards.md section 5): the source's surrounding software. Its rules are
not rules of the block (R5, R36); it is here so that the source's scenarios can be checked against the block. Time is an
unbounded natural in milliseconds (N19; log entry 18).
-/

namespace Sys2Proof.Machine

/-- What the host's polling context is doing (R138, R155, R156). -/
inductive Polling where
  /-- Start-up: waiting for cmd_ready, then the one RENDER 0 (R138, R156). -/
  | boot
  /-- Inside a tick, with a command presented and its response awaited (R139, R155). -/
  | issuing (i : Instr)
  /-- Between two ticks. -/
  | loop
deriving DecidableEq, Repr

/-- The host's state (R150), its status indicator (R155), what its polling context does, and two counts of the model's own:
ticks done, and defensive out-of-range reports made. -/
structure RefHost where
  counter : Nat
  lastAccepted : Nat
  renderPending : Bool
  indicator : Bool
  polling : Polling
  ticks : Nat
  rangeReports : Nat
deriving DecidableEq, Repr

/-- At start-up the counter is 0 and render-pending unset; the timestamp is the parameter T_LAST0 (R150). The spec gives the
indicator no level at start-up (R5, R155): DESIGN CHOICE, the parameter indicator0, any level (log entry 18). -/
def RefHost.start (P : Params) : RefHost where
  counter := 0
  lastAccepted := P.tLast0
  renderPending := false
  indicator := P.indicator0
  polling := .boot
  ticks := 0
  rangeReports := 0

/-- now - last_accepted_time > 200 ms, strictly (R151, R153, C3). -/
def RefHost.debounced (now : Nat) (h : RefHost) : Bool := decide (h.lastAccepted + debounceWindow < now)

/-- What an accepted event leaves: the counter at `c`, the timestamp at `now`; render-pending is set when the event changed
the counter, and on a blocked event when FLAG_ON_BLOCKED says so (R151, R154). -/
def RefHost.settle (P : Params) (now c : Nat) (h : RefHost) : RefHost :=
  { h with counter := c, lastAccepted := now, renderPending := h.renderPending || decide (c ≠ h.counter) || P.flagOnBlocked }

/-- An increment event at time `now` (R151, R153). -/
def RefHost.onIncrement (P : Params) (now : Nat) (h : RefHost) : RefHost :=
  if h.debounced now then h.settle P now (if h.counter < 9 then h.counter + 1 else h.counter) else h

/-- A decrement event at time `now` (R152, R153). -/
def RefHost.onDecrement (P : Params) (now : Nat) (h : RefHost) : RefHost :=
  if h.debounced now then h.settle P now (if 0 < h.counter then h.counter - 1 else h.counter) else h

/-- When the next tick is due: 100 ms, 200 ms and so on (R155; the spec's W6). -/
def RefHost.tickDue (h : RefHost) : Nat := tickPeriod * (h.ticks + 1)

/-- The indicator is toggled (R155). -/
def RefHost.toggle (h : RefHost) : RefHost := { h with indicator := !h.indicator }

/-- A tick's body (R155): the flag is cleared, the counter read once, its RENDER presented; the indicator is toggled at
every tick, after the response when there is one to wait for (`RefHost.answered`). -/
def RefHost.tickBody (h : RefHost) : RefHost :=
  if h.renderPending then
    if 9 < h.counter then { h with renderPending := false, rangeReports := h.rangeReports + 1 }.toggle
    else { h with renderPending := false, polling := .issuing (.render h.counter) }
  else h.toggle

/-- The polling context comes to its tick at time `now` (R155): the tick runs once it is due and the context is between two
ticks. DESIGN CHOICE: a tick that comes due while a response is still awaited runs late, and the ticks after it keep the
100 ms grid (log entry 18). -/
def RefHost.tick (now : Nat) (h : RefHost) : RefHost :=
  if h.polling = .loop ∧ h.tickDue ≤ now then { h with ticks := h.ticks + 1 }.tickBody else h

/-- The levels the host drives: in start-up nothing until cmd_ready = 1, then RENDER 0 (R138, R156); an issued command
unchanged until it is accepted (R139); otherwise nothing. -/
def RefHost.drive (h : RefHost) (s : State) : State :=
  match h.polling with
  | .boot => if s.release.cmdReady then s.present (encode (.render 0)) else s.release
  | .issuing i => s.present (encode i)
  | .loop => s.release

/-- The response of the host's command has been given: start-up is over, or the tick ends with the indicator (R155, R156). -/
def RefHost.answered (h : RefHost) : RefHost :=
  match h.polling with
  | .boot => { h with polling := .loop }
  | .issuing _ => { h.toggle with polling := .loop }
  | .loop => h

/-- The events of the closed system of host and block. -/
inductive HostEvent where
  /-- The block moves one step under the levels the host drives. -/
  | clock
  /-- A button event, in the host's interrupt context (R151, R152, R157). -/
  | increment (now : Nat)
  | decrement (now : Nat)
  /-- The polling context looks at its tick (R155). -/
  | tick (now : Nat)
  /-- Power loss or external reset: host and block start anew (R133, R134, R139). -/
  | restart
deriving DecidableEq, Repr

/-- Host and block together. -/
structure System where
  host : RefHost
  block : State
deriving DecidableEq, Repr

/-- The system when the power comes on (R134, R150). -/
def System.start (P : Params) : System := ⟨RefHost.start P, State.reset⟩

/-- A host state beside the block's outcome. -/
def withHost (h : RefHost) : Host.Outcome State Fault Refusal → Host.Outcome System Fault Refusal
  | .next t => .next ⟨h, t⟩
  | .fault f => .fault f
  | .refused r => .refused r

/-- One step of the block beside the host: the host goes on waiting until its command is accepted, which one step takes to
its response (R73, R139). In FAULT a host waits for ever: no step (R124). -/
def System.clock (y : System) : Host.Outcome System Fault Refusal :=
  withHost (if (accepted? (y.host.drive y.block)).isSome then y.host.answered else y.host) (step (y.host.drive y.block))

/-- One event of the closed system (R151 to R157). Button events and ticks leave the block alone. -/
def System.handle (P : Params) (y : System) : HostEvent → Host.Outcome System Fault Refusal
  | .clock => y.clock
  | .increment now => .next { y with host := y.host.onIncrement P now }
  | .decrement now => .next { y with host := y.host.onDecrement P now }
  | .tick now => .next { y with host := y.host.tick now }
  | .restart => withHost (RefHost.start P) (step { y.block with port := { y.block.port with rst := true } })

/-- Many events. -/
def System.run (P : Params) (y : System) : List HostEvent → Host.Outcome System Fault Refusal
  | [] => .next y
  | e :: es =>
    match y.handle P e with
    | .next z => z.run P es
    | .fault f => .fault f
    | .refused r => .refused r

end Sys2Proof.Machine
end

