-- ==== Sys2Proof/Machine/Run.lean ====
section
/-!
DEFINITION. What a run of the block is, when it is over, and what is observed of it (R148).
-/

namespace Sys2Proof.Machine

/-- The observation of a finished run: the final BUF, the list of responses and the sequence of output events (R148). -/
structure Observation where
  buf : Memory
  responses : List Word
  events : List Event
deriving DecidableEq, Repr

/-- A run that has come to `s` is over: PHASE = IDLE, and no accepted command waits for its response (R148). -/
def State.over (s : State) : Bool := decide (s.phase = .idle) && s.job.isNone

/-- What is observed of a run that has come to `s`: nothing while it is not over, in FAULT nothing ever (R148). -/
def State.observe (s : State) : Option Observation :=
  if s.over then some { buf := s.buf, responses := s.responses, events := s.events } else none

/-- The input levels by which the host presents a command word (R70). -/
def presentation (w : Word) : PortIn := ⟨false, true, w⟩

/-- A run: one step for each entry of the input levels. -/
def runSteps : List PortIn → State → Host.Outcome State Fault Refusal
  | [], s => .next s
  | i :: is, s =>
    match step { s with port := i } with
    | .next t => runSteps is t
    | .fault f => .fault f
    | .refused r => .refused r

/-- The observation of a run, if it is over. A run stuck in FAULT is never finished (R148). -/
def observeRun (ins : List PortIn) (s : State) : Option Observation :=
  match runSteps ins s with
  | .next t => t.observe
  | .fault _ => none
  | .refused _ => none

end Sys2Proof.Machine
end

