-- ==== Sys2Proof/Safety.lean ====
section
/-!
DEFINITION. What a good state and a good run are, in the terms the statements use: the invariant of the IDLE block (R34),
the invariant of every phase at the port and wire level, and what a command leaves alone.
-/

namespace Sys2Proof.Machine

/-- A response word R68 and R69 allow: bits 31:13 zero, data 0 to 24, status OK, OUT_OF_RANGE or ILLEGAL, and data only
with status OK. -/
def respAllowed (w : Word) : Bool :=
  decide (w.extractLsb' 13 19 = 0) && decide ((w.extractLsb' 8 5).toNat < nPix) &&
    (decide (w.extractLsb' 0 8 = Status.ok.code) ||
      (decide (w.extractLsb' 8 5 = 0) &&
        (decide (w.extractLsb' 0 8 = Status.outOfRange.code) || decide (w.extractLsb' 0 8 = Status.illegal.code))))

/-- The streamer's registers at rest: what they hold in every phase but STREAM (R25, R29, R30, R32). -/
def State.streamerAtRest (s : State) : Prop :=
  s.fifo = [] ∧ s.nbit = 0 ∧ s.shift = 0x00#8 ∧ s.bitT = 0 ∧ s.txByte = 0x00#8 ∧ s.cur = some Cursor.start ∧ s.dout = false

/-- The serializer has nothing to send yet in this frame: the emitter has offered no byte, or just the first one (R105,
R107); while start-up cycles are left it has offered none. -/
def State.beforeFirstBit (s : State) : Prop :=
  s.nbit = 0 ∧ s.shift = 0x00#8 ∧ s.bitT = 0 ∧ s.txByte = 0x00#8 ∧
    ((s.cur = some Cursor.start ∧ s.fifo = []) ∨
      (s.wait = 0 ∧ s.cur = Cursor.start.advance ∧ s.fifo = [s.buf.read Cursor.start.addr]))

/-- The serializer is inside a byte: SHIFT holds the bits still to send, and FIFO does not run dry (R107, R110). -/
def State.insideByte (P : Params) (s : State) : Prop :=
  s.wait = 0 ∧ 1 ≤ s.nbit ∧ s.nbit ≤ chanBits ∧ s.bitT < P.tBit ∧ s.shift = s.txByte <<< (chanBits - s.nbit) ∧
    (s.cur = none ∨ s.fifo ≠ [] ∨ (s.nbit = chanBits ∧ s.bitT = 0))

/-- What each phase says of the other registers (R21, R22, R34, R124). -/
def State.phaseInv (P : Params) (s : State) : Prop :=
  match s.phase with
  | .init => s.streamerAtRest ∧ s.job = none ∧ s.wait = 0 ∧ s.gapt < P.gapCycles ∧
      (P.channelOk = false → s.gapt = 0) ∧
      s.buf = Memory.zero ∧ s.resp = 0x00000000#32 ∧ s.respValid = false
  | .idle => s.streamerAtRest ∧ s.job = none ∧ s.wait = 0 ∧ s.gapt = P.gapCycles
  | .exec => s.streamerAtRest ∧ 1 ≤ s.wait ∧ s.gapt = P.gapCycles ∧ ∃ w, s.job = some w ∧ jobOf w ≠ .emit
  | .stream => s.gapt = P.gapCycles ∧ (∃ w, s.job = some w ∧ jobOf w ≠ .short) ∧
      (∀ x, s.cur = some x → x.k < nPix) ∧ (s.beforeFirstBit ∨ s.insideByte P)
  | .gap => s.streamerAtRest ∧ s.wait = 0 ∧ s.gapt < P.gapCycles ∧ ∃ w, s.job = some w ∧ jobOf w ≠ .short
  | .fault => s.streamerAtRest ∧ s.job = none ∧ s.wait = 0 ∧ s.gapt = 0 ∧
      s.buf = Memory.zero ∧ s.resp = 0x00000000#32 ∧ s.respValid = false

/-- The invariant of the block at the port and wire level, in every phase. -/
structure State.Inv (P : Params) (s : State) : Prop where
  /-- BUF keeps its canonical form (R39). -/
  buf : s.buf.wf = true
  /-- FIFO holds at most FIFO_DEPTH bytes (R29). -/
  fifo : s.fifo.length ≤ P.fifoDepth
  /-- RESP holds a word the spec lets the block produce (R68, R69). -/
  resp : respAllowed s.resp = true
  /-- `dout` is the level of the bit being sent, and low when none is (R32, R108, R109). -/
  dout : s.dout = lineLevel P s
  phase : s.phaseInv P

/-- The two states differ at most in the response and in the input ports: what a refusal and MAP may change (R91, R122). -/
def sameButResponse (s t : State) : Prop :=
  t = { s with resp := t.resp, respValid := t.respValid, responses := t.responses }

/-- Everything but BUF and the response is unchanged: what CLEAR, WRITE_PIXEL and DRAW may change (R78, R79, R92). -/
def sameButBufAndResponse (s t : State) : Prop :=
  t = { s with buf := t.buf, resp := t.resp, respValid := t.respValid, responses := t.responses }

/-- Everything but the output events, the response, GAPT and the count of frames is unchanged: what EMIT may change (R97,
R103). -/
def sameButOutput (s t : State) : Prop :=
  t = { s with
    events := t.events, resp := t.resp, respValid := t.respValid, responses := t.responses, gapt := t.gapt,
    frames := t.frames }

/-- What any command may change: BUF as well (R93). -/
def sameButBufAndOutput (s t : State) : Prop :=
  t = { s with
    buf := t.buf, events := t.events, resp := t.resp, respValid := t.respValid, responses := t.responses,
    gapt := t.gapt, frames := t.frames }

/-- `t` carries the response word `w`, given once, after those of `s` (R71). -/
def responded (s t : State) (w : Word) : Prop :=
  t.resp = w ∧ t.respValid = true ∧ t.responses = s.responses ++ [w]

/-- Every one of these edges has rst = 0. -/
def noReset (ins : List PortIn) : Prop := ∀ i ∈ ins, i.rst = false

/-- The input levels after these edges: the last ones, or the earlier ones when there is no edge. -/
def portAfter (s : State) (ins : List PortIn) : PortIn := ins.getLast?.getD s.port

end Sys2Proof.Machine
end

