-- ==== Sys2Proof/Certificates/Slice0/Obligations.lean ====
section
/-!
DEFINITION. The statements for the provers, each with the rule of spec/ it comes from. Where a statement holds for every
build of the block it is over all `P : Params`; where it is about `exec` or `step` it is over the block's own parameters,
which have no body.
-/

open Sys2Proof Sys2Proof.Machine

/-! ## Encoding (30_encoding.md) -/

/-- Words written out from the formats of R62 to R65, and the commands they stand for. -/
def Obligations.DecodesWordsWrittenFromTheFormats : Prop :=
  decode 0x20000000#32 = .ok .clear ∧
  decode 0x4C123456#32 = .ok (.writePixel 12 0x12#8 0x34#8 0x56#8) ∧
  decode 0x60000009#32 = .ok (.draw 9) ∧
  decode 0x80000000#32 = .ok .emit ∧
  decode 0xA0000007#32 = .ok (.render 7) ∧
  decode 0xC0000023#32 = .ok (.map 2 3) ∧
  decode 0x00000000#32 = .error .reservedOpcode ∧
  decode 0x30000000#32 = .error .reservedBits ∧
  decode 0x6000001C#32 = .error .reservedBits

/-- Decoding the word of a well-formed command gives the command back: no operand bit is dropped (R62 to R66, R72). -/
def Obligations.DecodeOfEncodeIsTheCommand : Prop :=
  ∀ i : Instr, i.wf = true → decode (encode i) = .ok i

/-- Each command word has one reading: it decodes to a well-formed command whose word it is (R66, R67, R72). -/
def Obligations.EncodeOfDecodeIsTheWord : Prop :=
  ∀ (w : Word) (i : Instr), decode w = .ok i → i.wf = true ∧ encode i = w

/-- R119: exactly the words with a reserved opcode or a reserved bit set decode to no command; and an ILLEGAL word that a
ready block accepts answers 0x00000002 and changes nothing else. -/
def Obligations.IllegalWordsAnswerTwoAndChangeNothingElse : Prop :=
  (∀ w : Word, (∃ e, decode w = .error e) ↔
    (opcode w = 0b000#3 ∨ opcode w = 0b111#3 ∨
      ((opcode w = 0b001#3 ∨ opcode w = 0b100#3) ∧ w.extractLsb' 0 29 ≠ 0) ∨
      ((opcode w = 0b011#3 ∨ opcode w = 0b101#3) ∧ w.extractLsb' 4 25 ≠ 0) ∨
      (opcode w = 0b110#3 ∧ w.extractLsb' 8 21 ≠ 0))) ∧
  ∀ (s : State) (e : Illegal), s.cmdReady = true → s.port.cmdValid = true → decode s.port.cmd = .error e →
    step s = .next { s with
      resp := 0x00000002#32, respValid := true, responses := s.responses ++ [0x00000002#32] }

/-! ## Reset, INIT and FAULT (70_reset_and_hazards.md, 60_exceptions.md) -/

/-- R35's table, with its derived outputs. -/
def Obligations.ResetLeavesTheTableOfValues : Prop :=
  (∀ k, k < 25 → State.reset.buf.pixel k = ⟨0x00#8, 0x00#8, 0x00#8⟩) ∧
  State.reset.phase = .init ∧ State.reset.cur = some ⟨0, .g⟩ ∧ State.reset.resp = 0x00000000#32 ∧
  State.reset.respValid = false ∧ State.reset.fifo = [] ∧ State.reset.shift = 0x00#8 ∧ State.reset.nbit = 0 ∧
  State.reset.gapt = 0 ∧ State.reset.dout = false ∧
  State.reset.out.cmdReady = false ∧ State.reset.out.busy = true ∧ State.reset.out.fault = false

/-- R135: with rst = 1, in any state, every state element takes its reset value and the outputs show it at once; no
response is given and what was sent stays sent. `step` does the same. -/
def Obligations.ResetAbandonsWhateverIsInProgress : Prop :=
  ∀ (P : Params) (s : State), s.port.rst = true →
    (clockEdge P s).buf = Memory.zero ∧ (clockEdge P s).phase = .init ∧ (clockEdge P s).cur = some ⟨0, .g⟩ ∧
    (clockEdge P s).fifo = [] ∧ (clockEdge P s).shift = 0x00#8 ∧ (clockEdge P s).nbit = 0 ∧ (clockEdge P s).gapt = 0 ∧
    (clockEdge P s).resp = 0x00000000#32 ∧ (clockEdge P s).respValid = false ∧ (clockEdge P s).dout = false ∧
    (clockEdge P s).events = s.events ∧ (clockEdge P s).responses = s.responses ∧
    s.out = { cmdReady := false, respValid := false, resp := 0x00000000#32, busy := true, fault := false, dout := false } ∧
    step s = .next (clockEdge Config.params s)

/-- R136: from reset, with rst = 0: without a channel the first edge enters FAULT; with one the block stays in INIT with
`dout` low until ⌈T_GAP · F_CLK⌉ edges have passed, and at that edge is IDLE with cmd_ready = 1. -/
def Obligations.InitHoldsTheLineLowForTheGap : Prop :=
  ∀ (P : Params) (s : State) (ins : List PortIn), noReset ins →
    (P.channelOk = false → ins ≠ [] → (cycles P s.inReset ins).phase = .fault) ∧
    (P.channelOk = true → ins.length < P.gapCycles →
      (cycles P s.inReset ins).phase = .init ∧ (cycles P s.inReset ins).gapt = ins.length ∧
        (cycles P s.inReset ins).dout = false) ∧
    (P.channelOk = true → ins.length = P.gapCycles →
      (cycles P s.inReset ins).phase = .idle ∧ (cycles P s.inReset ins).dout = false ∧
        (cycles P s.inReset ins).cmdReady = true)

/-- R124: in FAULT with rst = 0, however many edges pass and whatever the host presents: fault = 1, busy, cmd_ready,
resp_valid and dout 0, BUF and RESP at their reset values, no response and no event; `step` and every command stop there.
Reset leaves FAULT. -/
def Obligations.FaultAcceptsNothingUntilReset : Prop :=
  ∀ (P : Params) (s : State) (ins : List PortIn), s.Inv P → s.phase = .fault → s.port.rst = false → noReset ins →
    (cycles P s ins).phase = .fault ∧
    (cycles P s ins).out =
      { cmdReady := false, respValid := false, resp := 0x00000000#32, busy := false, fault := true, dout := false } ∧
    (cycles P s ins).buf = Memory.zero ∧ (cycles P s ins).events = s.events ∧
    (cycles P s ins).responses = s.responses ∧
    step (cycles P s ins) = .fault .fatalStartUp ∧ (∀ i, exec i (cycles P s ins) = .fault .fatalStartUp) ∧
    (clockEdge P { s with port := { s.port with rst := true } }).phase = .init

/-- R23: busy and fault follow PHASE (with rst = 0; under reset they are INIT's). -/
def Obligations.BusyAndFaultFollowPhase : Prop :=
  ∀ s : State, s.port.rst = false →
    (s.out.busy = true ↔ (s.phase = .init ∨ s.phase = .exec ∨ s.phase = .stream ∨ s.phase = .gap)) ∧
    (s.out.fault = true ↔ s.phase = .fault) ∧
    (s.out.cmdReady = true ↔ s.phase = .idle)

/-! ## CLEAR and WRITE_PIXEL (41_buffer_ops.md) -/

/-- R78: CLEAR is exactly 0x20000000; an accepted CLEAR sets all 25 pixels to (0,0,0), answers 0x00000000, sends nothing
and changes nothing else. -/
def Obligations.ClearSetsEveryPixelToZero : Prop :=
  encode .clear = 0x20000000#32 ∧
  (∀ w : Word, opcode w = 0b001#3 → w ≠ 0x20000000#32 → decode w = .error .reservedBits) ∧
  ∀ s : State, s.cmdReady = true → ∃ t, exec .clear s = .next t ∧
    t.buf = Memory.zero ∧ (∀ k, k < 25 → t.buf.pixel k = ⟨0x00#8, 0x00#8, 0x00#8⟩) ∧
    responded s t 0x00000000#32 ∧ sameButBufAndResponse s t

/-- R79: the word of WRITE_PIXEL, which is never ILLEGAL; in range it writes the one pixel's three bytes and no other byte,
and answers 0x00000000; p of 25 to 31 answers 0x00000001 and changes nothing else. -/
def Obligations.WritePixelWritesOnePixel : Prop :=
  (∀ (p : Nat) (g r b : Byte), p < 32 →
    (encode (.writePixel p g r b)).toNat = 0x40000000 + p * 2 ^ 24 + g.toNat * 2 ^ 16 + r.toNat * 2 ^ 8 + b.toNat) ∧
  (∀ w : Word, opcode w = 0b010#3 → ∃ p g r b, decode w = .ok (.writePixel p g r b)) ∧
  ∀ (s : State) (p : Nat) (g r b : Byte), s.cmdReady = true →
    (p ≤ 24 → ∃ t, exec (.writePixel p g r b) s = .next t ∧
      t.buf.pixel p = ⟨g, r, b⟩ ∧ (∀ a, a < 3 * p ∨ 3 * p + 3 ≤ a → t.buf.read a = s.buf.read a) ∧
      responded s t 0x00000000#32 ∧ sameButBufAndResponse s t) ∧
    (24 < p → ∃ t, exec (.writePixel p g r b) s = .next t ∧ responded s t 0x00000001#32 ∧ sameButResponse s t)

/-! ## MAP, DRAW and RENDER (42_renderer.md) -/

/-- R87's tables of phys and inv. -/
def Obligations.PhysAndInvAreTheTables : Prop :=
  (List.range 5).map (fun i => (List.range 5).map (phys i)) =
    [[24, 23, 22, 21, 20], [15, 16, 17, 18, 19], [14, 13, 12, 11, 10], [5, 6, 7, 8, 9], [4, 3, 2, 1, 0]] ∧
  (List.range 25).map inv =
    [(4, 4), (4, 3), (4, 2), (4, 1), (4, 0), (3, 0), (3, 1), (3, 2), (3, 3), (3, 4), (2, 4), (2, 3), (2, 2), (2, 1),
     (2, 0), (1, 0), (1, 1), (1, 2), (1, 3), (1, 4), (0, 4), (0, 3), (0, 2), (0, 1), (0, 0)]

/-- R85 and R86: phys is a bijection from the grid onto 0..24, with inverse inv. -/
def Obligations.SerpentineMapIsABijection : Prop :=
  (∀ i j, i < 5 → j < 5 → phys i j < 25 ∧ inv (phys i j) = (i, j)) ∧
  (∀ p, p < 25 → (inv p).1 < 5 ∧ (inv p).2 < 5 ∧ phys (inv p).1 (inv p).2 = p)

/-- R91: the word of MAP and its ILLEGAL words; a coordinate inside the grid answers phys(i, j) in bits 12:8 with status
OK; outside it answers 0x00000001; nothing but the response changes. -/
def Obligations.MapAnswersTheSerpentineIndex : Prop :=
  (∀ i j, i < 16 → j < 16 → (encode (.map i j)).toNat = 0xC0000000 + i * 16 + j) ∧
  (∀ w : Word, opcode w = 0b110#3 → w.extractLsb' 8 21 ≠ 0 → decode w = .error .reservedBits) ∧
  ∀ (s : State) (i j : Nat), s.cmdReady = true →
    (i ≤ 4 → j ≤ 4 → ∃ t, exec (.map i j) s = .next t ∧
      responded s t (BitVec.ofNat 32 (phys i j * 256)) ∧ sameButResponse s t) ∧
    (4 < i ∨ 4 < j → ∃ t, exec (.map i j) s = .next t ∧ responded s t 0x00000001#32 ∧ sameButResponse s t)

/-- R92: the word of DRAW and its ILLEGAL words; d of 0 to 9 puts each glyph cell at its serpentine place, channels copied
by name, whatever BUF held, and answers 0x00000000; d of 10 to 15 answers 0x00000001 and changes nothing else. -/
def Obligations.DrawCopiesTheGlyphByChannelName : Prop :=
  (∀ d, d < 16 → (encode (.draw d)).toNat = 0x60000000 + d) ∧
  (∀ w : Word, opcode w = 0b011#3 → w.extractLsb' 4 25 ≠ 0 → decode w = .error .reservedBits) ∧
  (∀ (s : State) (d : Fin 10), s.cmdReady = true → ∃ t, exec (.draw d.val) s = .next t ∧
    (∀ (i : Fin 5) (j : Fin 5), t.buf.pixel (phys i.val j.val) =
      ⟨(Config.params.glyph d i j).G, (Config.params.glyph d i j).R, (Config.params.glyph d i j).B⟩) ∧
    responded s t 0x00000000#32 ∧ sameButBufAndResponse s t) ∧
  (∀ (s : State) (d : Nat), s.cmdReady = true → 9 < d → ∃ t, exec (.draw d) s = .next t ∧
    responded s t 0x00000001#32 ∧ sameButResponse s t)

/-- R93, R94: the word of RENDER and its ILLEGAL words; d of 0 to 9 sends digit d's frame and one Latch, leaves every pixel
(0,0,0) and answers 0x00000000, the gap having passed; d of 10 to 15 answers 0x00000001: no clear, no byte, no Latch. -/
def Obligations.RenderSendsTheGlyphAndClears : Prop :=
  (∀ d, d < 16 → (encode (.render d)).toNat = 0xA0000000 + d) ∧
  (∀ w : Word, opcode w = 0b101#3 → w.extractLsb' 4 25 ≠ 0 → decode w = .error .reservedBits) ∧
  (∀ (s : State) (d : Fin 10), s.cmdReady = true → ∃ t, exec (.render d.val) s = .next t ∧
    t.events = s.events ++ (glyphFrame (Config.params.glyph d)).map Event.byte ++ [.latch] ∧
    t.buf = Memory.zero ∧ t.gapt = Config.params.gapCycles ∧ responded s t 0x00000000#32 ∧ sameButBufAndOutput s t) ∧
  (∀ (s : State) (d : Nat), s.cmdReady = true → 9 < d → ∃ t, exec (.render d) s = .next t ∧
    responded s t 0x00000001#32 ∧ sameButResponse s t)

/-- R95: after a successful RENDER every pixel is (0,0,0), whatever BUF held; after an OUT_OF_RANGE or ILLEGAL RENDER BUF is
unchanged. -/
def Obligations.AfterRenderTheBufferIsZero : Prop :=
  ∀ (s t : State), s.cmdReady = true → s.port.cmdValid = true → opcode s.port.cmd = 0b101#3 → step s = .next t →
    (t.resp = 0x00000000#32 → ∀ k, k < 25 → t.buf.pixel k = ⟨0x00#8, 0x00#8, 0x00#8⟩) ∧
    (t.resp = 0x00000001#32 ∨ t.resp = 0x00000002#32 → t.buf = s.buf)

/-- R96: DRAW d then EMIT, from any state of a ready block, sends exactly the 75 bytes of digit d's cells in the physical
order of the serpentine mapping, then Latch; RENDER d, from any other such state, sends the same. -/
def Obligations.DrawThenEmitSendsTheBitmap : Prop :=
  ∀ (s v : State) (d : Fin 10), s.cmdReady = true → v.cmdReady = true →
    ∃ t u x, exec (.draw d.val) s = .next t ∧ exec .emit t = .next u ∧ exec (.render d.val) v = .next x ∧
      u.events = s.events ++ ((List.range 25).flatMap fun k =>
        [Event.byte (cellAt (Config.params.glyph d) k).G, Event.byte (cellAt (Config.params.glyph d) k).R,
         Event.byte (cellAt (Config.params.glyph d) k).B]) ++ [.latch] ∧
      ∃ es, u.events = s.events ++ es ∧ x.events = v.events ++ es ∧ es.length = 76

/-! ## EMIT (43_stream.md) -/

/-- R97, R98: EMIT is exactly 0x80000000; an accepted EMIT sends the bytes at BUF addresses 0, 1, ..., 74 in that order, then
one Latch, leaves BUF alone, and answers 0x00000000 when the gap has passed. -/
def Obligations.EmitSendsTheBufferInAddressOrder : Prop :=
  encode .emit = 0x80000000#32 ∧
  (∀ w : Word, opcode w = 0b100#3 → w ≠ 0x80000000#32 → decode w = .error .reservedBits) ∧
  ∀ s : State, s.cmdReady = true → ∃ t, exec .emit s = .next t ∧
    t.events = s.events ++ ((List.range 75).map fun a => Event.byte (s.buf.read a)) ++ [.latch] ∧
    t.gapt = Config.params.gapCycles ∧ responded s t 0x00000000#32 ∧ sameButOutput s t

/-- T5 and R75's BLANK: CLEAR then EMIT sends 75 zero bytes and one Latch, whatever BUF held. -/
def Obligations.ClearThenEmitIsADarkFrame : Prop :=
  ∀ s : State, s.cmdReady = true →
    ∃ t u, exec .clear s = .next t ∧ exec .emit t = .next u ∧
      u.events = s.events ++ List.replicate 75 (Event.byte 0x00#8) ++ [.latch] ∧ u.buf = Memory.zero

/-! ## Every command -/

/-- The frame of every command, in every state: nothing but BUF, the output events, the response, GAPT and the count of
frames may change. PHASE, CUR, FIFO, SHIFT, NBIT, dout, the ports and the model's other fields never do. -/
def Obligations.CommandsLeaveTheStreamerAndPortsAlone : Prop :=
  ∀ (i : Instr) (s t : State), exec i s = .next t → sameButBufAndOutput s t

/-- R19's list of writers: BUF is written only by CLEAR, WRITE_PIXEL, DRAW and RENDER; and only EMIT and RENDER send. -/
def Obligations.OnlyFourCommandsWriteAndTwoSend : Prop :=
  ∀ (i : Instr) (s t : State), exec i s = .next t →
    (t.buf ≠ s.buf → i = .clear ∨ (∃ p g r b, i = .writePixel p g r b) ∨ (∃ d, i = .draw d) ∨ (∃ d, i = .render d)) ∧
    (t.events ≠ s.events → i = .emit ∨ (∃ d, i = .render d)) ∧
    (t.gapt ≠ s.gapt ∨ t.frames ≠ s.frames → i = .emit ∨ (∃ d, i = .render d))

/-- R71, R68, R69: a ready block answers every command with exactly one response, one of the words the spec allows, and is
IDLE again. -/
def Obligations.EveryCommandGetsOneAllowedResponse : Prop :=
  ∀ (i : Instr) (s : State), s.cmdReady = true →
    ∃ t, exec i s = .next t ∧ responded s t t.resp ∧ respAllowed t.resp = true ∧ t.phase = .idle ∧ t.cmdReady = true

/-- R120: every OUT_OF_RANGE cause answers 0x00000001 and changes nothing else. -/
def Obligations.OutOfRangeOperandsAnswerOneAndChangeNothingElse : Prop :=
  ∀ s : State, s.cmdReady = true →
    (∀ p g r b, 25 ≤ p → exec (.writePixel p g r b) s = .next { s with
      resp := 0x00000001#32, respValid := true, responses := s.responses ++ [0x00000001#32] }) ∧
    (∀ d, 10 ≤ d → exec (.draw d) s = .next { s with
      resp := 0x00000001#32, respValid := true, responses := s.responses ++ [0x00000001#32] }) ∧
    (∀ d, 10 ≤ d → exec (.render d) s = .next { s with
      resp := 0x00000001#32, respValid := true, responses := s.responses ++ [0x00000001#32] }) ∧
    (∀ i j, 5 ≤ i ∨ 5 ≤ j → exec (.map i j) s = .next { s with
      resp := 0x00000001#32, respValid := true, responses := s.responses ++ [0x00000001#32] })

/-- R49: repeating CLEAR, WRITE_PIXEL, DRAW or MAP leaves the same BUF and gives the same response; EMIT leaves BUF
unchanged and sends the frame once more each time; RENDER leaves BUF all zero and sends one frame each time. -/
def Obligations.RepeatingACommandLeavesTheSameBuffer : Prop :=
  ∀ s : State, s.cmdReady = true → s.buf.wf = true →
    (∀ i, i ≠ .emit → (∀ d, i ≠ .render d) → ∃ t u, exec i s = .next t ∧ exec i t = .next u ∧
      u.buf = t.buf ∧ u.resp = t.resp) ∧
    (∃ t u es, exec .emit s = .next t ∧ exec .emit t = .next u ∧ t.buf = s.buf ∧ u.buf = s.buf ∧ es.length = 76 ∧
      t.events = s.events ++ es ∧ u.events = t.events ++ es) ∧
    (∀ d, d ≤ 9 → ∃ t u es, exec (.render d) s = .next t ∧ exec (.render d) t = .next u ∧ t.buf = Memory.zero ∧
      u.buf = Memory.zero ∧ es.length = 76 ∧ t.events = s.events ++ es ∧ u.events = t.events ++ es)

/-! ## The step -/

/-- A step runs the decoded command: a ready block with cmd_valid = 1 and a word that decodes to `i` steps as `exec i`, and
so does the state with that word placed at the command port. Nothing is added around `exec`. -/
def Obligations.StepRunsTheAcceptedCommand : Prop :=
  (∀ (s : State) (i : Instr), s.cmdReady = true → s.port.cmdValid = true → decode s.port.cmd = .ok i →
    step s = exec i s) ∧
  (∀ (s : State) (w : Nat) (i : Instr), decodeTableWord 32 w = some i →
    step (s.withFetchWord 32 w) = exec i (s.withFetchWord 32 w) ∧ (s.withFetchWord 32 w).cmdReady = true)

/-- R70, R71: with no command presented an IDLE block only lets RESP_VALID fall; RESP keeps its value. -/
def Obligations.IdleBlockWithoutACommandWaits : Prop :=
  ∀ s : State, s.cmdReady = true → s.port.cmdValid = false →
    step s = .next { s with respValid := false, dout := false }

/-- R70, R140: while PHASE is not IDLE the block ignores cmd_valid and cmd: an edge does the same whatever they are, and a
command handed to a block that is neither IDLE nor in FAULT changes nothing. -/
def Obligations.BusyBlockIgnoresTheCommandPort : Prop :=
  (∀ (P : Params) (s : State) (v : Bool) (w : Word), s.phase ≠ .idle →
    clockEdge P { s with port := { s.port with cmdValid := v, cmd := w } } =
      { clockEdge P s with port := { s.port with cmdValid := v, cmd := w } }) ∧
  (∀ (s : State) (i : Instr), s.phase ≠ .idle → s.phase ≠ .fault → exec i s = .next s)

/-! ## The two storage spaces (20_memory.md) -/

/-- R41, R42: byte 3k + c is channel c of pixel k, and the 24-bit pixel word is green, red, blue from the top. -/
def Obligations.PixelWordIsGreenRedBlue : Prop :=
  ∀ (m : Memory) (k : Nat),
    m.read (3 * k) = (m.pixel k).g ∧ m.read (3 * k + 1) = (m.pixel k).r ∧ m.read (3 * k + 2) = (m.pixel k).b ∧
    m.pixelWord k = (m.pixel k).g ++ (m.pixel k).r ++ (m.pixel k).b

/-- R43, R44: the ROM holds each cell at 3*(25d + 5i + j), red first, and nothing past byte 749; the 24-bit ROM word of a
cell is red, green, blue from the top, and its channels go to a pixel by name. -/
def Obligations.RomHoldsTheCellsRowMajorRedFirst : Prop :=
  ∀ P : Params,
    (∀ (d : Fin 10) (i j : Fin 5),
      romRead P (3 * (25 * d.val + 5 * i.val + j.val)) = some (P.glyph d i j).R ∧
      romRead P (3 * (25 * d.val + 5 * i.val + j.val) + 1) = some (P.glyph d i j).G ∧
      romRead P (3 * (25 * d.val + 5 * i.val + j.val) + 2) = some (P.glyph d i j).B ∧
      romRead3 P (3 * (25 * d.val + 5 * i.val + j.val)) =
        some ((P.glyph d i j).R ++ (P.glyph d i j).G ++ (P.glyph d i j).B) ∧
      (romRead3 P (3 * (25 * d.val + 5 * i.val + j.val))).map (fun w => Cell.toPixel (Cell.ofWord w)) =
        some ⟨(P.glyph d i j).G, (P.glyph d i j).R, (P.glyph d i j).B⟩) ∧
    (∀ a, romRead P a = none ↔ 750 ≤ a) ∧ (∀ a, romRead3 P a = none ↔ 748 ≤ a)

/-! ## Invariants -/

/-- The state after reset meets the invariant of every phase, for every build. -/
def Obligations.ResetMeetsTheInvariant : Prop := ∀ P : Params, State.reset.Inv P

/-- Every clock edge keeps the invariant of every phase, for every build: BUF's canonical form, the FIFO bound, the allowed
response words, the level of the line, and what R21, R22, R34, R110 and R124 say of each phase. -/
def Obligations.EveryClockEdgeKeepsTheInvariant : Prop :=
  ∀ (P : Params) (s : State), s.Inv P → (clockEdge P s).Inv P

/-- Every step keeps the same invariant at the block's own parameters, whole transactions included. -/
def Obligations.EveryStepKeepsTheInvariant : Prop :=
  ∀ (s t : State), s.Inv Config.params → step s = .next t → t.Inv Config.params

/-- R34: from reset, under any inputs, whenever PHASE = IDLE the FIFO is empty, NBIT = 0, dout = 0 and GAPT has reached
⌈T_GAP · F_CLK⌉. -/
def Obligations.IdleMeansLineQuietAndGapPassed : Prop :=
  ∀ (P : Params) (ins : List PortIn), (cycles P State.reset ins).phase = .idle →
    (cycles P State.reset ins).fifo = [] ∧ (cycles P State.reset ins).nbit = 0 ∧
    (cycles P State.reset ins).dout = false ∧ (cycles P State.reset ins).gapt = P.gapCycles

/-- R32, R109: in every phase but STREAM the line is low: after any clock edge from any state, after any inputs from reset,
and after any step from a state whose line is so. -/
def Obligations.LineIsLowOutsideStream : Prop :=
  (∀ (P : Params) (s : State), (clockEdge P s).phase ≠ .stream → (clockEdge P s).dout = false) ∧
  (∀ (P : Params) (ins : List PortIn), (cycles P State.reset ins).phase ≠ .stream →
    (cycles P State.reset ins).dout = false) ∧
  (∀ s t : State, (s.phase ≠ .stream → s.dout = false) → step s = .next t → t.phase ≠ .stream → t.dout = false)

/-! ## The port and wire level (30_encoding.md section 3, 43_stream.md section 2) -/

/-- R22, R70: at the acceptance edge the word is sampled and PHASE leaves IDLE: EMIT to STREAM with CUR = (0, 0), everything
else to EXEC. That BUF, the events and the responses are as before at this edge is the model's choice: the spec gives no
cycle for a command's writes (log entry 21); the word is kept in job, the model's own field (log entry 3). -/
def Obligations.AcceptanceLeavesIdle : Prop :=
  ∀ (P : Params) (s : State), s.cmdReady = true → s.port.cmdValid = true →
    (clockEdge P s).job = some s.port.cmd ∧ (clockEdge P s).buf = s.buf ∧ (clockEdge P s).events = s.events ∧
    (clockEdge P s).responses = s.responses ∧ (clockEdge P s).respValid = false ∧
    (clockEdge P s).cmdReady = false ∧
    (decode s.port.cmd = .ok .emit → (clockEdge P s).phase = .stream ∧ (clockEdge P s).cur = some ⟨0, .g⟩) ∧
    (decode s.port.cmd ≠ .ok .emit → (clockEdge P s).phase = .exec)

/-- R71: CLEAR, WRITE_PIXEL, DRAW, MAP and every refused command complete L_CMD cycles after acceptance, not before, with
exactly the transaction's effect. -/
def Obligations.ShortCommandsRespondAfterLCmdCycles : Prop :=
  ∀ (P : Params) (s : State) (ins : List PortIn), s.Inv P → s.cmdReady = true → s.port.cmdValid = true →
    jobOf s.port.cmd = .short → noReset ins →
    (ins.length < P.lCmd → (cycles P (clockEdge P s) ins).phase = .exec) ∧
    (ins.length = P.lCmd →
      cycles P (clockEdge P s) ins = { transact P s.port.cmd s with port := portAfter s ins })

/-- R99: the advance rule of the stream cursor. -/
def Obligations.CursorAdvancesThroughChannelsThenPixels : Prop :=
  (∀ k, Cursor.advance ⟨k, .g⟩ = some ⟨k, .r⟩) ∧ (∀ k, Cursor.advance ⟨k, .r⟩ = some ⟨k, .b⟩) ∧
  (∀ k, k < 24 → Cursor.advance ⟨k, .b⟩ = some ⟨k + 1, .g⟩) ∧ Cursor.advance ⟨24, .b⟩ = none ∧
  (∀ k c, Cursor.addr ⟨k, c⟩ = 3 * k + c.index)

/-- R105: in STREAM the byte at CUR enters FIFO at the next edge, and CUR advances, exactly when FIFO holds fewer than
FIFO_DEPTH bytes; otherwise the emitter waits with the same byte. -/
def Obligations.EmitterSendsWhenFifoHasRoom : Prop :=
  ∀ (P : Params) (s : State) (x : Cursor), s.phase = .stream → s.wait = 0 → s.port.rst = false → s.cur = some x →
    (s.fifo.length < P.fifoDepth →
      (clockEdge P s).cur = x.advance ∧
      ((clockEdge P s).fifo = s.fifo ++ [s.buf.read x.addr] ∨
        (clockEdge P s).fifo = s.fifo.tail ++ [s.buf.read x.addr])) ∧
    (¬ s.fifo.length < P.fifoDepth →
      (clockEdge P s).cur = some x ∧ ((clockEdge P s).fifo = s.fifo ∨ (clockEdge P s).fifo = s.fifo.tail))

/-- R106: no byte of a frame is lost, duplicated or reordered between BUF and the line: at every edge of STREAM the bytes
already sent, followed by those pending, stay the same. -/
def Obligations.StreamLosesNoByte : Prop :=
  ∀ (P : Params) (s : State), s.phase = .stream → s.port.rst = false → (∀ x, s.cur = some x → x.k < 25) →
    (clockEdge P s).events ++ (clockEdge P s).pending.map Event.byte = s.events ++ s.pending.map Event.byte

/-- R107, R108: from the edge that loads a byte into SHIFT, the line carries its eight bits most significant first, each
high for T1H or T0H and then low, T_BIT in all. -/
def Obligations.ByteGoesOutMostSignificantBitFirst : Prop :=
  ∀ (P : Params) (s : State) (ins : List PortIn), s.phase = .stream → s.wait = 0 → s.nbit = 8 → s.bitT = 0 →
    s.dout = lineLevel P s → noReset ins → ins.length + 1 = 8 * P.tBit →
    s.dout :: lineTrace P s ins = (bitsOf s.shift).flatMap (waveform P)

/-- R110 to R113: after an accepted EMIT the line is low for some number of start-up cycles (S4: any number), then carries
the 600 bit periods of the frame back to back, then is low for the gap and the first cycle of IDLE; whatever the host drives
on cmd_valid and cmd meanwhile. -/
def Obligations.FrameOnTheWireHasNoPause : Prop :=
  ∀ (P : Params) (s : State), s.Inv P → s.cmdReady = true → s.port.cmdValid = true →
    decode s.port.cmd = .ok .emit →
    ∃ n, ∀ ins : List PortIn, noReset ins → ins.length = n + 600 * P.tBit + P.gapCycles + 1 →
      lineTrace P (clockEdge P s) ins =
        List.replicate n false ++ frameWaveform P s.buf ++ List.replicate (P.gapCycles + 1) false

/-- The port and wire level refines the transaction level (R6, R22, R54, R71, R103): after the acceptance edge of any word
there is a number of cycles after which, and not before, the block is IDLE again, and then it is in exactly the state of
the transaction, whatever the host drives on cmd_valid and cmd meanwhile. -/
def Obligations.WireLevelRunIsTheTransaction : Prop :=
  ∀ (P : Params) (s : State), s.Inv P → s.cmdReady = true → s.port.cmdValid = true →
    ∃ n, 0 < n ∧ ∀ ins : List PortIn, noReset ins →
      (ins.length < n → (cycles P (clockEdge P s) ins).phase ≠ .idle) ∧
      (ins.length = n →
        cycles P (clockEdge P s) ins = { transact P s.port.cmd s with port := portAfter s ins })

/-- R103, R111: a block in GAP stays there, the line low, until GAPT reaches ⌈T_GAP · F_CLK⌉; at that edge it is IDLE, the
Latch is sent and the response 0x00000000 given. The spec gives the order of the events and not their cycle: that the Latch is
recorded at the edge that ends the gap, and no event before it in GAP, is the model's choice (log entry 11). -/
def Obligations.GapLastsUntilGaptReachesItsBound : Prop :=
  ∀ (P : Params) (s : State) (ins : List PortIn), s.Inv P → s.phase = .gap → noReset ins →
    (s.gapt + ins.length < P.gapCycles →
      (cycles P s ins).phase = .gap ∧ (cycles P s ins).gapt = s.gapt + ins.length ∧ (cycles P s ins).dout = false ∧
      (cycles P s ins).responses = s.responses ∧ (cycles P s ins).events = s.events) ∧
    (s.gapt + ins.length = P.gapCycles →
      (cycles P s ins).phase = .idle ∧ (cycles P s ins).dout = false ∧
      responded s (cycles P s ins) 0x00000000#32 ∧ (cycles P s ins).events = s.events ++ [.latch])

/-- R8, R102, R108: for every build the gap is at least T_GAP, and T_GAP at least T_RESET_MIN (in microseconds, F_CLK in
megahertz), the gap is no longer than it need be, and 0 < T0H < T1H < T_BIT. -/
def Obligations.GapIsAtLeastOneHundredMicroseconds : Prop :=
  ∀ P : Params,
    P.tGap.1 * P.fClk.1 ≤ P.gapCycles * (P.tGap.2 * P.fClk.2) ∧
    P.gapCycles * (P.tGap.2 * P.fClk.2) < P.tGap.1 * P.fClk.1 + P.tGap.2 * P.fClk.2 ∧
    100 * P.tGap.2 ≤ P.tGap.1 ∧ 100 * P.fClk.1 ≤ P.gapCycles * P.fClk.2 ∧
    0 < P.t0h ∧ P.t0h < P.t1h ∧ P.t1h < P.tBit

/-! ## The assembler (30_encoding.md section 5) -/

/-- R75: the expansions of BLANK, PLOT and FILL; PLOT outside the grid is an error. -/
def Obligations.PseudoInstructionsExpandToCommands : Prop :=
  assembleLine .blank = .ok [0x20000000#32, 0x80000000#32] ∧
  (∀ i j g r b, i ≤ 4 → j ≤ 4 → assembleLine (.plot i j g r b) = assembleLine (.writePixel (phys i j) g r b)) ∧
  (∀ i j g r b, 4 < i ∨ 4 < j → assembleLine (.plot i j g r b) = .error .outsideGrid) ∧
  (∀ g r b, g < 256 → r < 256 → b < 256 → assembleLine (.fill g r b) = .ok ((List.range 25).map fun k =>
    encode (.writePixel k (BitVec.ofNat 8 g) (BitVec.ofNat 8 r) (BitVec.ofNat 8 b))))

/-- R74: a line with an operand that does not fit its field produces no word; every other line but `.word` produces words
that decode to commands. -/
def Obligations.AssembledLinesAreCommands : Prop :=
  (∀ p g r b, 32 ≤ p ∨ 256 ≤ g ∨ 256 ≤ r ∨ 256 ≤ b → assembleLine (.writePixel p g r b) = .error .operandTooLarge) ∧
  (∀ d, 16 ≤ d → assembleLine (.draw d) = .error .operandTooLarge ∧ assembleLine (.render d) = .error .operandTooLarge) ∧
  (∀ i j, 16 ≤ i ∨ 16 ≤ j → assembleLine (.map i j) = .error .operandTooLarge) ∧
  (∀ (l : AsmLine) (ws : List Word), (∀ w, l ≠ .word w) → assembleLine l = .ok ws →
    ∀ w ∈ ws, ∃ i, decode w = .ok i)

/-! ## The host reference model (70_reset_and_hazards.md section 5) and the strip -/

/-- R153: an event at most 200 ms after the last accepted one changes nothing. -/
def Obligations.EventsInsideTheWindowAreDropped : Prop :=
  ∀ (P : Params) (h : RefHost) (now : Nat), now ≤ h.lastAccepted + 200 →
    h.onIncrement P now = h ∧ h.onDecrement P now = h

/-- R151, R152, R154: an event past the window moves the timestamp in any case, the counter within its bound, and sets
render-pending, on a blocked event only if FLAG_ON_BLOCKED. -/
def Obligations.AcceptedEventsMoveCounterAndTimestamp : Prop :=
  ∀ (P : Params) (h : RefHost) (now : Nat), h.lastAccepted + 200 < now →
    (h.counter < 9 → h.onIncrement P now =
      { h with counter := h.counter + 1, lastAccepted := now, renderPending := true }) ∧
    (9 ≤ h.counter → h.onIncrement P now =
      { h with lastAccepted := now, renderPending := h.renderPending || P.flagOnBlocked }) ∧
    (0 < h.counter → h.onDecrement P now =
      { h with counter := h.counter - 1, lastAccepted := now, renderPending := true }) ∧
    (h.counter = 0 → h.onDecrement P now =
      { h with lastAccepted := now, renderPending := h.renderPending || P.flagOnBlocked })

/-- T3, R150 to R152: the host's counter never leaves 0..9. -/
def Obligations.CounterStaysBetweenZeroAndNine : Prop :=
  ∀ (P : Params) (y z : System) (e : HostEvent),
    (RefHost.start P).counter ≤ 9 ∧ (y.host.counter ≤ 9 → y.handle P e = .next z → z.host.counter ≤ 9)

/-- R155: a due tick between two ticks, with render-pending set and the counter at `d`, clears the flag and presents RENDER
d; the block IDLE, its next step sends the digit's frame, gives one response OK, and the tick ends with the indicator
toggled. Without render-pending it only toggles the indicator. A tick that is not due, or that the polling context cannot
come to (it is in start-up or awaits a response), does nothing; that it then runs late is the model's choice (log entry 18). -/
def Obligations.PendingTickRendersTheCounter : Prop :=
  ∀ (P : Params) (y : System) (now : Nat),
    (∀ d : Fin 10, y.block.phase = .idle → y.host.counter = d.val → y.host.polling = .loop → y.host.tickDue ≤ now →
      y.host.renderPending = true → ∃ x z, y.handle P (.tick now) = .next x ∧ x.block = y.block ∧
        x.host = { y.host with
          ticks := y.host.ticks + 1, renderPending := false, polling := .issuing (.render d.val) } ∧
        x.handle P .clock = .next z ∧
        z.host = { y.host with ticks := y.host.ticks + 1, renderPending := false, indicator := !y.host.indicator } ∧
        z.block.events = y.block.events ++ (glyphFrame (Config.params.glyph d)).map Event.byte ++ [.latch] ∧
        z.block.responses = y.block.responses ++ [0x00000000#32] ∧ z.block.phase = .idle) ∧
    (y.host.polling = .loop → y.host.tickDue ≤ now → y.host.renderPending = false → y.handle P (.tick now) = .next
      { y with host := { y.host with ticks := y.host.ticks + 1, indicator := !y.host.indicator } }) ∧
    (y.host.polling ≠ .loop ∨ now < y.host.tickDue → y.handle P (.tick now) = .next y)

/-- R155, R139, R140: a host with a command issued on a block that is busy goes on presenting it, edge after edge, unchanged;
on an IDLE block the command is accepted and answered; in FAULT the host waits for ever (R124). -/
def Obligations.HostWaitsForItsResponse : Prop :=
  ∀ (P : Params) (y : System) (i : Instr), y.host.polling = .issuing i → i.wf = true →
    (y.block.phase ≠ .idle → y.block.phase ≠ .fault →
      ∃ t, step (y.block.present (encode i)) = .next t ∧ y.handle P .clock = .next ⟨y.host, t⟩) ∧
    (y.block.phase = .idle → ∃ t r, exec i (y.block.present (encode i)) = .next t ∧
      t.responses = y.block.responses ++ [r] ∧
      y.handle P .clock = .next ⟨{ y.host with polling := .loop, indicator := !y.host.indicator }, t⟩) ∧
    (y.block.phase = .fault → y.handle P .clock = .fault .fatalStartUp)

/-- R156, R138, R116: the host waits for the block to leave INIT and then issues RENDER 0, once, before its first tick. On an
IDLE block the strip then shows, at every position k, the cell of digit 0 at inv(k), and start-up is over; from power-on this
takes the cycles of the gap and the command, if there is a channel; without one the block is in FAULT and the host waits for
ever. No tick runs before. -/
def Obligations.StartUpRenderShowsDigitZero : Prop :=
  (∀ (P : Params) (y : System), y.block.phase = .idle → y.host.polling = .boot →
    ∃ z, y.handle P .clock = .next z ∧ z.host = { y.host with polling := .loop } ∧
      strip z.block.events = some ((List.range 25).map fun k => Cell.toPixel (cellAt (Config.params.glyph 0) k))) ∧
  (∀ (P : Params) (y : System) (now : Nat), y.host.polling = .boot → y.handle P (.tick now) = .next y) ∧
  (∀ P : Params,
    if Config.params.channelOk then
      (∀ n, n ≤ Config.params.gapCycles → ∃ z, (System.start P).run P (List.replicate n .clock) = .next z ∧
        z.host = RefHost.start P ∧ z.block.responses = [] ∧ z.block.events = []) ∧
      ∃ z, (System.start P).run P (List.replicate (Config.params.gapCycles + 1) .clock) = .next z ∧
        z.host = { RefHost.start P with polling := .loop } ∧ z.block.responses = [0x00000000#32] ∧
        strip z.block.events = some ((List.range 25).map fun k => Cell.toPixel (cellAt (Config.params.glyph 0) k))
    else
      ∃ z, (System.start P).handle P .clock = .next z ∧ z.host = RefHost.start P ∧ z.block.phase = .fault ∧
        z.handle P .clock = .fault .fatalStartUp)

/-! ## A run (70_reset_and_hazards.md) -/

/-- R148, R52: a run of commands on an IDLE block is over when the last has given its response; what is observed of it is the
BUF, the responses and the events that the transactions leave, one after another in the order of acceptance. A run in FAULT
is never over. -/
def Obligations.RunIsOverWhenTheLastResponseIsGiven : Prop :=
  (∀ (s : State) (ws : List Word), s.phase = .idle → s.job = none → ∃ t, runSteps (ws.map presentation) s = .next t ∧
    t.over = true ∧
    observeRun (ws.map presentation) s = some ⟨t.buf, t.responses, t.events⟩ ∧
    t.buf = (ws.foldl (fun u w => transact Config.params w u) s).buf ∧
    t.responses = (ws.foldl (fun u w => transact Config.params w u) s).responses ∧
    t.events = (ws.foldl (fun u w => transact Config.params w u) s).events ∧
    t.responses.length = s.responses.length + ws.length) ∧
  (∀ (s : State) (ins : List PortIn), s.phase = .fault → noReset ins → observeRun ins s = none)
end

