-- ==== Sys2Proof/Laws/Memory.lean ====
section
/-!
SUPPORT. The laws of the BUF byte space: a read after a write, the canonical form, and two canonical memories that read
alike are equal. Then pixels, DRAW's 25 writes, and the bytes of a frame.
-/

namespace Sys2Proof.Machine

/-! ## Bytes -/

@[simp] theorem Memory.read_nil (a : Nat) : Memory.read [] a = Memory.unlisted := rfl

@[simp] theorem Memory.read_zero (a : Nat) : Memory.zero.read a = 0x00#8 := rfl

theorem Memory.read_cons (c : Host.Cell) (t : Memory) (a : Nat) :
    Memory.read (c :: t) a = if c.1 = a then c.2 else Memory.read t a := rfl

/-- A memory that does not list an address reads there as an unlisted byte. -/
theorem Memory.read_of_unlisted (m : Memory) (a : Nat) (h : ∀ c ∈ m, c.1 ≠ a) : m.read a = Memory.unlisted := by
  induction m with
  | nil => rfl
  | cons c t ih =>
    rw [Memory.read_cons, if_neg (h c (by simp))]
    exact ih fun d hd => h d (by simp [hd])

theorem Memory.read_filter_self (m : Memory) (a : Nat) :
    Memory.read (m.filter fun c => decide (c.1 ≠ a)) a = Memory.unlisted :=
  Memory.read_of_unlisted _ _ fun c hc => by simpa using (List.mem_filter.mp hc).2

theorem Memory.read_filter_other (m : Memory) (a b : Nat) (h : a ≠ b) :
    Memory.read (m.filter fun c => decide (c.1 ≠ a)) b = m.read b := by
  induction m with
  | nil => rfl
  | cons c t ih =>
    by_cases hc : c.1 = a
    · have : c.1 ≠ b := hc ▸ h
      simpa [List.filter_cons, hc, Memory.read_cons, h] using ih
    · simp only [ne_eq, decide_not] at ih
      simp [hc, Memory.read_cons, ih]

theorem Memory.read_insert (m : Memory) (a b : Nat) (v : Byte) (h : ∀ c ∈ m, c.1 ≠ a) :
    (Memory.insert a v m).read b = if a = b then v else m.read b := by
  induction m with
  | nil => rfl
  | cons c t ih =>
    have hc : c.1 ≠ a := h c (by simp)
    have ht := ih fun d hd => h d (by simp [hd])
    unfold Memory.insert
    split
    · rw [Memory.read_cons, Memory.read_cons, ht]
      by_cases hb : a = b
      · have : ¬ c.1 = b := hb ▸ hc
        simp [hb, this]
      · simp [hb]
    · rfl

/-- A read after a write: the byte written there, every other byte as before. -/
theorem Memory.read_write (m : Memory) (a b : Nat) (v : Byte) :
    (m.write a v).read b = if a = b then v else m.read b := by
  have hne : ∀ c ∈ m.filter (fun c => decide (c.1 ≠ a)), c.1 ≠ a := fun c hc => by
    simpa using (List.mem_filter.mp hc).2
  unfold Memory.write
  simp only
  split
  · next hv =>
    by_cases h : a = b
    · subst h; rw [if_pos rfl, Memory.read_filter_self, hv]
    · rw [if_neg h, Memory.read_filter_other _ _ _ h]
  · rw [Memory.read_insert _ _ _ _ hne]
    by_cases h : a = b
    · simp [h]
    · rw [if_neg h, if_neg h, Memory.read_filter_other _ _ _ h]

/-! ## The canonical form -/

theorem Memory.wf_iff (m : Memory) :
    m.wf = true ↔ m.Pairwise (fun a b => a.1 < b.1) ∧ ∀ c ∈ m, c.1 < nBytes ∧ c.2 ≠ Memory.unlisted := by
  simp [Memory.wf]

@[simp] theorem Memory.wf_zero : Memory.zero.wf = true := rfl

theorem Memory.mem_insert (m : Memory) (a : Nat) (v : Byte) (c : Host.Cell) :
    c ∈ Memory.insert a v m ↔ c = (a, v) ∨ c ∈ m := by
  induction m with
  | nil => simp [Memory.insert]
  | cons d t ih =>
    unfold Memory.insert
    split
    · rw [List.mem_cons, ih, List.mem_cons]; tauto
    · simp

theorem Memory.insert_rising (m : Memory) (a : Nat) (v : Byte) (h : m.Pairwise fun a b => a.1 < b.1)
    (hne : ∀ c ∈ m, c.1 ≠ a) : (Memory.insert a v m).Pairwise fun a b => a.1 < b.1 := by
  induction m with
  | nil => simp [Memory.insert]
  | cons d t ih =>
    rw [List.pairwise_cons] at h
    have hd : d.1 ≠ a := hne d (by simp)
    unfold Memory.insert
    split
    · rw [List.pairwise_cons]
      refine ⟨fun c hc => ?_, ih h.2 fun c hc => hne c (by simp [hc])⟩
      rcases (Memory.mem_insert t a v c).mp hc with rfl | hc
      · assumption
      · exact h.1 c hc
    · rw [List.pairwise_cons, List.pairwise_cons]
      refine ⟨fun c hc => ?_, h⟩
      rcases List.mem_cons.mp hc with rfl | hc
      · show a < c.1; omega
      · have := h.1 c hc
        show a < c.1; omega

/-- A write inside the space keeps the canonical form. -/
theorem Memory.wf_write (m : Memory) (a : Nat) (v : Byte) (h : m.wf = true) (ha : a < nBytes) :
    (m.write a v).wf = true := by
  rw [Memory.wf_iff] at h ⊢
  have hp : (m.filter fun c => decide (c.1 ≠ a)).Pairwise fun a b => a.1 < b.1 := h.1.filter _
  have hm : ∀ c ∈ m.filter (fun c => decide (c.1 ≠ a)), c ∈ m ∧ c.1 ≠ a := fun c hc => by
    simpa using List.mem_filter.mp hc
  unfold Memory.write
  simp only
  split
  · exact ⟨hp, fun c hc => h.2 c (hm c hc).1⟩
  · refine ⟨Memory.insert_rising _ _ _ hp fun c hc => (hm c hc).2, fun c hc => ?_⟩
    rcases (Memory.mem_insert _ _ _ _).mp hc with rfl | hc
    · exact ⟨ha, by assumption⟩
    · exact h.2 c (hm c hc).1

/-- Two canonical memories that read alike everywhere are the same listing. -/
theorem Memory.ext_of_wf {m n : Memory} (hm : m.wf = true) (hn : n.wf = true) (h : ∀ a, m.read a = n.read a) : m = n := by
  rw [Memory.wf_iff] at hm hn
  induction m generalizing n with
  | nil =>
    cases n with
    | nil => rfl
    | cons d t =>
      have := h d.1
      simp only [Memory.read_nil, Memory.read_cons, if_true] at this
      exact absurd this.symm (hn.2 d (by simp)).2
  | cons c t ih =>
    have low : ∀ (x : Host.Cell) (l : Memory), (x :: l).Pairwise (fun a b => a.1 < b.1) → ∀ a, a < x.1 →
        Memory.read (x :: l) a = Memory.unlisted := fun x l hl a ha =>
      Memory.read_of_unlisted _ _ fun y hy => by
        rcases List.mem_cons.mp hy with rfl | hy
        · omega
        · have := (List.pairwise_cons.mp hl).1 y hy; omega
    have tail : ∀ (x : Host.Cell) (l : Memory), (x :: l).Pairwise (fun a b => a.1 < b.1) → ∀ a, a ≤ x.1 →
        Memory.read l a = Memory.unlisted := fun x l hl a ha =>
      Memory.read_of_unlisted _ _ fun y hy => by
        have := (List.pairwise_cons.mp hl).1 y hy; omega
    cases n with
    | nil =>
      have := h c.1
      simp only [Memory.read_nil, Memory.read_cons, if_true] at this
      exact absurd this (hm.2 c (by simp)).2
    | cons d u =>
      have hcd : c.1 = d.1 := by
        rcases Nat.lt_trichotomy c.1 d.1 with hlt | heq | hgt
        · have := h c.1
          rw [low d u hn.1 c.1 hlt, Memory.read_cons, if_pos rfl] at this
          exact absurd this (hm.2 c (by simp)).2
        · exact heq
        · have := h d.1
          rw [low c t hm.1 d.1 hgt, Memory.read_cons, if_pos rfl] at this
          exact absurd this.symm (hn.2 d (by simp)).2
      have hv : c.2 = d.2 := by
        have := h c.1
        rwa [Memory.read_cons, if_pos rfl, Memory.read_cons, if_pos hcd.symm] at this
      have htu : t = u := ih (n := u) ⟨(List.pairwise_cons.mp hm.1).2, fun x hx => hm.2 x (by simp [hx])⟩
        ⟨(List.pairwise_cons.mp hn.1).2, fun x hx => hn.2 x (by simp [hx])⟩ fun a => by
          by_cases ha : c.1 = a
          · rw [tail c t hm.1 a (by omega), tail d u hn.1 a (by omega)]
          · have := h a
            rwa [Memory.read_cons, if_neg ha, Memory.read_cons, if_neg (hcd ▸ ha)] at this
      rw [htu, Prod.ext hcd hv]

/-! ## Pixels -/

/-- Different channel addresses belong to different pixels or channels (R40, R41). -/
theorem chanAddr_inj {k l : Nat} {c d : Chan} : chanAddr k c = chanAddr l d ↔ k = l ∧ c = d := by
  cases c <;> cases d <;> simp [chanAddr, Chan.index, nChan] <;> omega

theorem chanAddr_lt {k : Nat} (h : k < nPix) (c : Chan) : chanAddr k c < nBytes := by
  simp only [nPix] at h
  cases c <;> simp [chanAddr, Chan.index, nChan, nBytes] <;> omega

/-- Every byte address is a channel of a pixel (R41). -/
theorem chanAddr_surj (a : Nat) : ∃ c, a = chanAddr (a / 3) c := by
  rcases (by omega : a % 3 = 0 ∨ a % 3 = 1 ∨ a % 3 = 2) with h | h | h
  · exact ⟨.g, by simp [chanAddr, Chan.index, nChan]; omega⟩
  · exact ⟨.r, by simp [chanAddr, Chan.index, nChan]; omega⟩
  · exact ⟨.b, by simp [chanAddr, Chan.index, nChan]; omega⟩

theorem Memory.pixel_chan (m : Memory) (k : Nat) (c : Chan) : (m.pixel k).chan c = m.read (chanAddr k c) := by
  cases c <;> rfl

/-- A pixel write: its three bytes, every other byte as before (R79). -/
theorem Memory.read_setPixel (m : Memory) (k : Nat) (x : Pixel) (l : Nat) (c : Chan) :
    (m.setPixel k x).read (chanAddr l c) = if k = l then x.chan c else m.read (chanAddr l c) := by
  unfold Memory.setPixel
  simp only [Memory.read_write, chanAddr_inj]
  by_cases h : k = l <;> cases c <;> simp [h, Pixel.chan]

/-- A byte outside the pixel's three keeps its value (R79). -/
theorem Memory.read_setPixel_outside (m : Memory) (k : Nat) (x : Pixel) (a : Nat)
    (h : a < 3 * k ∨ 3 * k + 3 ≤ a) : (m.setPixel k x).read a = m.read a := by
  obtain ⟨c, hc⟩ := chanAddr_surj a
  rw [hc, Memory.read_setPixel, if_neg (by omega)]

theorem Memory.pixel_setPixel (m : Memory) (k l : Nat) (x : Pixel) :
    (m.setPixel k x).pixel l = if k = l then x else m.pixel l := by
  unfold Memory.pixel
  simp only [Memory.read_setPixel]
  by_cases h : k = l <;> simp [h, Pixel.chan]

theorem Memory.wf_setPixel (m : Memory) (k : Nat) (x : Pixel) (h : m.wf = true) (hk : k < nPix) :
    (m.setPixel k x).wf = true :=
  Memory.wf_write _ _ _ (Memory.wf_write _ _ _ (Memory.wf_write _ _ _ h (chanAddr_lt hk _)) (chanAddr_lt hk _))
    (chanAddr_lt hk _)

/-! ## DRAW's 25 writes -/

theorem mem_cells (x : Fin nRows × Fin nCols) : x ∈ cells := by
  simp [cells]

theorem phys_lt (x : Fin nRows × Fin nCols) : phys x.1 x.2 < nPix := by
  revert x; decide

/-- No two cells of the grid share a pixel (R86). -/
theorem phys_inj {x y : Fin nRows × Fin nCols} (h : phys x.1 x.2 = phys y.1 y.2) : x = y := by
  revert x y; decide

/-- Every pixel is the place of a cell (R85, R86). -/
theorem phys_surj {k : Nat} (h : k < nPix) : ∃ x : Fin nRows × Fin nCols, phys x.1 x.2 = k := by
  have : ∀ k : Fin nPix, ∃ x : Fin nRows × Fin nCols, phys x.1 x.2 = k.val := by decide
  exact this ⟨k, h⟩

/-- A chain of pixel writes at places given by `phys`, at the cell `x`. -/
theorem Memory.pixel_foldl_cells (G : Glyph) (l : List (Fin nRows × Fin nCols)) (m : Memory) (x : Fin nRows × Fin nCols) :
    (l.foldl (fun m y => m.setPixel (phys y.1 y.2) (Cell.toPixel (G y.1 y.2))) m).pixel (phys x.1 x.2) =
      if x ∈ l then Cell.toPixel (G x.1 x.2) else m.pixel (phys x.1 x.2) := by
  induction l generalizing m with
  | nil => rfl
  | cons y t ih =>
    rw [List.foldl_cons, ih, Memory.pixel_setPixel]
    by_cases hx : x ∈ t
    · simp [hx]
    · by_cases hy : y = x
      · simp [hy]
      · have : ¬ phys y.1 y.2 = phys x.1 x.2 := fun e => hy (phys_inj e)
        have hxy : ¬ x = y := fun e => hy e.symm
        simp [hx, this, hxy]

/-- DRAW puts each cell, by channel name, at its place (R92). -/
theorem Memory.pixel_draw (m : Memory) (G : Glyph) (i : Fin nRows) (j : Fin nCols) :
    (m.draw G).pixel (phys i j) = Cell.toPixel (G i j) := by
  unfold Memory.draw
  rw [Memory.pixel_foldl_cells G cells m (i, j), if_pos (mem_cells _)]

theorem Memory.foldl_cells_outside (G : Glyph) (l : List (Fin nRows × Fin nCols)) (m : Memory) (a : Nat)
    (h : nBytes ≤ a) :
    (l.foldl (fun m y => m.setPixel (phys y.1 y.2) (Cell.toPixel (G y.1 y.2))) m).read a = m.read a := by
  induction l generalizing m with
  | nil => rfl
  | cons y t ih =>
    have := phys_lt y
    rw [List.foldl_cons, ih, Memory.read_setPixel_outside]
    simp only [nBytes, nPix] at *; omega

theorem Memory.wf_draw (m : Memory) (G : Glyph) (h : m.wf = true) : (m.draw G).wf = true := by
  unfold Memory.draw
  generalize cells = l
  induction l generalizing m with
  | nil => exact h
  | cons y t ih => exact ih _ (Memory.wf_setPixel _ _ _ h (phys_lt y))

/-- Two memories with the same 25 pixels read alike inside the space. -/
theorem Memory.read_of_pixels {m n : Memory} (h : ∀ k, k < nPix → m.pixel k = n.pixel k) (a : Nat) (ha : a < nBytes) :
    m.read a = n.read a := by
  obtain ⟨c, hc⟩ := chanAddr_surj a
  have hk : a / 3 < nPix := by simp only [nBytes, nPix] at *; omega
  rw [hc, ← Memory.pixel_chan, ← Memory.pixel_chan, h _ hk]

theorem Memory.read_outside (m : Memory) (h : m.wf = true) (a : Nat) (ha : nBytes ≤ a) : m.read a = Memory.unlisted :=
  Memory.read_of_unlisted _ _ fun c hc => by
    have := (((Memory.wf_iff m).mp h).2 c hc).1
    omega

/-- Canonical memories with the same 25 pixels are equal. -/
theorem Memory.ext_of_pixels {m n : Memory} (hm : m.wf = true) (hn : n.wf = true)
    (h : ∀ k, k < nPix → m.pixel k = n.pixel k) : m = n :=
  Memory.ext_of_wf hm hn fun a => by
    by_cases ha : a < nBytes
    · exact Memory.read_of_pixels h a ha
    · rw [Memory.read_outside m hm a (by omega), Memory.read_outside n hn a (by omega)]

/-- DRAW's result does not depend on what BUF held (R92). -/
theorem Memory.draw_eq_draw (m n : Memory) (G : Glyph) (hm : m.wf = true) (hn : n.wf = true) : m.draw G = n.draw G :=
  Memory.ext_of_pixels (Memory.wf_draw _ _ hm) (Memory.wf_draw _ _ hn) fun k hk => by
    obtain ⟨⟨i, j⟩, rfl⟩ := phys_surj hk
    rw [Memory.pixel_draw, Memory.pixel_draw]

/-! ## Frames -/

/-- The bytes of a frame are the bytes at addresses 0 to 74, in that order (R98). -/
theorem Memory.frame_eq (m : Memory) : m.frame = (List.range nBytes).map m.read := rfl

@[simp] theorem Memory.frame_length (m : Memory) : m.frame.length = nBytes := by
  rw [Memory.frame_eq]; simp

/-- From the byte at the cursor on: that byte, then the bytes from the next cursor on (R99). -/
theorem Memory.frame_drop (m : Memory) (a : Nat) (h : a < nBytes) : m.frame.drop a = m.read a :: m.frame.drop (a + 1) := by
  rw [Memory.frame_eq, List.drop_eq_getElem_cons (by simpa using h)]
  simp

theorem frameEvents_length (m : Memory) : (frameEvents m).length = nBytes + 1 := by
  simp [frameEvents]

/-! ## The glyph ROM -/

/-- Byte `c` of cell (i, j) of digit d (R43). -/
theorem romRead_cell (P : Params) (d : Fin nGlyphs) (i : Fin nRows) (j : Fin nCols) (c : Nat) (hc : c < nChan) :
    romRead P (cellAddr d i j + c) = some (cellChan (P.glyph d i j) c) := by
  obtain ⟨d, hd⟩ := d
  obtain ⟨i, hi⟩ := i
  obtain ⟨j, hj⟩ := j
  have e : cellAddr d i j = 3 * (25 * d + 5 * i + j) := rfl
  simp only [nGlyphs, nRows, nCols, nChan] at hd hi hj hc
  simp only [e]
  unfold romRead
  rw [dif_pos (show _ < romBytes from show _ < 750 by omega)]
  have h1 : (3 * (25 * d + 5 * i + j) + c) / (nRows * nCols * nChan) = d := show _ / 75 = _ by omega
  have h2 : (3 * (25 * d + 5 * i + j) + c) / (nCols * nChan) % nRows = i := show _ / 15 % 5 = _ by omega
  have h3 : (3 * (25 * d + 5 * i + j) + c) / nChan % nCols = j := show _ / 3 % 5 = _ by omega
  have h4 : (3 * (25 * d + 5 * i + j) + c) % nChan = c := show _ % 3 = _ by omega
  simp only [h1, h2, h3, h4]

/-- The space ends at byte 749 (R43). -/
theorem romRead_eq_none (P : Params) (a : Nat) : romRead P a = none ↔ romBytes ≤ a := by
  unfold romRead
  split <;> simp <;> omega

/-- The word of a ROM cell is its three channels, red first, and reads back as the cell (R44). -/
theorem cell_ofWord (x : Cell) : Cell.ofWord (x.R ++ x.G ++ x.B) = x := by
  obtain ⟨r, g, b⟩ := x
  simp only [Cell.ofWord, Cell.mk.injEq]
  have h : ∀ k, (r ++ g ++ b).getLsbD k =
      if k < 8 then b.getLsbD k else if k - 8 < 8 then g.getLsbD (k - 8) else r.getLsbD (k - 8 - 8) := fun k => by
    rw [BitVec.getLsbD_append, BitVec.getLsbD_append]
  refine ⟨?_, ?_, ?_⟩
  all_goals
    apply BitVec.eq_of_getLsbD_eq
    intro k hk
    rw [BitVec.getLsbD_extractLsb', h]
  · rw [if_neg (by omega), if_neg (by omega), show 16 + k - 8 - 8 = k by omega]; simp [show k < 8 from hk]
  · rw [if_neg (by omega), if_pos (by omega), show 8 + k - 8 = k by omega]; simp [show k < 8 from hk]
  · rw [if_pos (by omega), Nat.zero_add]; simp [show k < 8 from hk]

end Sys2Proof.Machine
end

