-- ==== Sys2Proof/Laws/State.lean ====
section
/-!
SUPPORT. What each update of the state does to each field: one lemma a field, true by unfolding, so that no later proof
unfolds an update.
-/

namespace Sys2Proof.Machine

/-! The response writes RESP, RESP_VALID and the response history, nothing else (R71). -/

@[simp] theorem State.respond_buf (st : Status) (n : Nat) (s : State) : (s.respond st n).buf = s.buf := rfl
@[simp] theorem State.respond_phase (st : Status) (n : Nat) (s : State) : (s.respond st n).phase = s.phase := rfl
@[simp] theorem State.respond_cur (st : Status) (n : Nat) (s : State) : (s.respond st n).cur = s.cur := rfl
@[simp] theorem State.respond_resp (st : Status) (n : Nat) (s : State) : (s.respond st n).resp = responseWord st n := rfl
@[simp] theorem State.respond_respValid (st : Status) (n : Nat) (s : State) : (s.respond st n).respValid = true := rfl
@[simp] theorem State.respond_fifo (st : Status) (n : Nat) (s : State) : (s.respond st n).fifo = s.fifo := rfl
@[simp] theorem State.respond_shift (st : Status) (n : Nat) (s : State) : (s.respond st n).shift = s.shift := rfl
@[simp] theorem State.respond_nbit (st : Status) (n : Nat) (s : State) : (s.respond st n).nbit = s.nbit := rfl
@[simp] theorem State.respond_gapt (st : Status) (n : Nat) (s : State) : (s.respond st n).gapt = s.gapt := rfl
@[simp] theorem State.respond_dout (st : Status) (n : Nat) (s : State) : (s.respond st n).dout = s.dout := rfl
@[simp] theorem State.respond_port (st : Status) (n : Nat) (s : State) : (s.respond st n).port = s.port := rfl
@[simp] theorem State.respond_events (st : Status) (n : Nat) (s : State) : (s.respond st n).events = s.events := rfl
@[simp] theorem State.respond_responses (st : Status) (n : Nat) (s : State) : (s.respond st n).responses = s.responses ++ [responseWord st n] := rfl
@[simp] theorem State.respond_job (st : Status) (n : Nat) (s : State) : (s.respond st n).job = s.job := rfl
@[simp] theorem State.respond_wait (st : Status) (n : Nat) (s : State) : (s.respond st n).wait = s.wait := rfl
@[simp] theorem State.respond_bitT (st : Status) (n : Nat) (s : State) : (s.respond st n).bitT = s.bitT := rfl
@[simp] theorem State.respond_txByte (st : Status) (n : Nat) (s : State) : (s.respond st n).txByte = s.txByte := rfl
@[simp] theorem State.respond_frames (st : Status) (n : Nat) (s : State) : (s.respond st n).frames = s.frames := rfl

/-! A refusal is a response and nothing else (R122). -/

@[simp] theorem State.refuse_buf (st : Status) (s : State) : (s.refuse st).buf = s.buf := rfl
@[simp] theorem State.refuse_phase (st : Status) (s : State) : (s.refuse st).phase = s.phase := rfl
@[simp] theorem State.refuse_cur (st : Status) (s : State) : (s.refuse st).cur = s.cur := rfl
@[simp] theorem State.refuse_resp (st : Status) (s : State) : (s.refuse st).resp = responseWord st 0 := rfl
@[simp] theorem State.refuse_respValid (st : Status) (s : State) : (s.refuse st).respValid = true := rfl
@[simp] theorem State.refuse_fifo (st : Status) (s : State) : (s.refuse st).fifo = s.fifo := rfl
@[simp] theorem State.refuse_shift (st : Status) (s : State) : (s.refuse st).shift = s.shift := rfl
@[simp] theorem State.refuse_nbit (st : Status) (s : State) : (s.refuse st).nbit = s.nbit := rfl
@[simp] theorem State.refuse_gapt (st : Status) (s : State) : (s.refuse st).gapt = s.gapt := rfl
@[simp] theorem State.refuse_dout (st : Status) (s : State) : (s.refuse st).dout = s.dout := rfl
@[simp] theorem State.refuse_port (st : Status) (s : State) : (s.refuse st).port = s.port := rfl
@[simp] theorem State.refuse_events (st : Status) (s : State) : (s.refuse st).events = s.events := rfl
@[simp] theorem State.refuse_responses (st : Status) (s : State) : (s.refuse st).responses = s.responses ++ [responseWord st 0] := rfl
@[simp] theorem State.refuse_job (st : Status) (s : State) : (s.refuse st).job = s.job := rfl
@[simp] theorem State.refuse_wait (st : Status) (s : State) : (s.refuse st).wait = s.wait := rfl
@[simp] theorem State.refuse_bitT (st : Status) (s : State) : (s.refuse st).bitT = s.bitT := rfl
@[simp] theorem State.refuse_txByte (st : Status) (s : State) : (s.refuse st).txByte = s.txByte := rfl
@[simp] theorem State.refuse_frames (st : Status) (s : State) : (s.refuse st).frames = s.frames := rfl

/-! Clearing writes BUF only (R78). -/

@[simp] theorem State.clearBuf_buf (s : State) : s.clearBuf.buf = Memory.zero := rfl
@[simp] theorem State.clearBuf_phase (s : State) : s.clearBuf.phase = s.phase := rfl
@[simp] theorem State.clearBuf_cur (s : State) : s.clearBuf.cur = s.cur := rfl
@[simp] theorem State.clearBuf_resp (s : State) : s.clearBuf.resp = s.resp := rfl
@[simp] theorem State.clearBuf_respValid (s : State) : s.clearBuf.respValid = s.respValid := rfl
@[simp] theorem State.clearBuf_fifo (s : State) : s.clearBuf.fifo = s.fifo := rfl
@[simp] theorem State.clearBuf_shift (s : State) : s.clearBuf.shift = s.shift := rfl
@[simp] theorem State.clearBuf_nbit (s : State) : s.clearBuf.nbit = s.nbit := rfl
@[simp] theorem State.clearBuf_gapt (s : State) : s.clearBuf.gapt = s.gapt := rfl
@[simp] theorem State.clearBuf_dout (s : State) : s.clearBuf.dout = s.dout := rfl
@[simp] theorem State.clearBuf_port (s : State) : s.clearBuf.port = s.port := rfl
@[simp] theorem State.clearBuf_events (s : State) : s.clearBuf.events = s.events := rfl
@[simp] theorem State.clearBuf_responses (s : State) : s.clearBuf.responses = s.responses := rfl
@[simp] theorem State.clearBuf_job (s : State) : s.clearBuf.job = s.job := rfl
@[simp] theorem State.clearBuf_wait (s : State) : s.clearBuf.wait = s.wait := rfl
@[simp] theorem State.clearBuf_bitT (s : State) : s.clearBuf.bitT = s.bitT := rfl
@[simp] theorem State.clearBuf_txByte (s : State) : s.clearBuf.txByte = s.txByte := rfl
@[simp] theorem State.clearBuf_frames (s : State) : s.clearBuf.frames = s.frames := rfl

/-! Drawing writes BUF only (R92). -/

@[simp] theorem State.drawDigit_buf (P : Params) (d : Fin nGlyphs) (s : State) : (s.drawDigit P d).buf = s.buf.draw (P.glyph d) := rfl
@[simp] theorem State.drawDigit_phase (P : Params) (d : Fin nGlyphs) (s : State) : (s.drawDigit P d).phase = s.phase := rfl
@[simp] theorem State.drawDigit_cur (P : Params) (d : Fin nGlyphs) (s : State) : (s.drawDigit P d).cur = s.cur := rfl
@[simp] theorem State.drawDigit_resp (P : Params) (d : Fin nGlyphs) (s : State) : (s.drawDigit P d).resp = s.resp := rfl
@[simp] theorem State.drawDigit_respValid (P : Params) (d : Fin nGlyphs) (s : State) : (s.drawDigit P d).respValid = s.respValid := rfl
@[simp] theorem State.drawDigit_fifo (P : Params) (d : Fin nGlyphs) (s : State) : (s.drawDigit P d).fifo = s.fifo := rfl
@[simp] theorem State.drawDigit_shift (P : Params) (d : Fin nGlyphs) (s : State) : (s.drawDigit P d).shift = s.shift := rfl
@[simp] theorem State.drawDigit_nbit (P : Params) (d : Fin nGlyphs) (s : State) : (s.drawDigit P d).nbit = s.nbit := rfl
@[simp] theorem State.drawDigit_gapt (P : Params) (d : Fin nGlyphs) (s : State) : (s.drawDigit P d).gapt = s.gapt := rfl
@[simp] theorem State.drawDigit_dout (P : Params) (d : Fin nGlyphs) (s : State) : (s.drawDigit P d).dout = s.dout := rfl
@[simp] theorem State.drawDigit_port (P : Params) (d : Fin nGlyphs) (s : State) : (s.drawDigit P d).port = s.port := rfl
@[simp] theorem State.drawDigit_events (P : Params) (d : Fin nGlyphs) (s : State) : (s.drawDigit P d).events = s.events := rfl
@[simp] theorem State.drawDigit_responses (P : Params) (d : Fin nGlyphs) (s : State) : (s.drawDigit P d).responses = s.responses := rfl
@[simp] theorem State.drawDigit_job (P : Params) (d : Fin nGlyphs) (s : State) : (s.drawDigit P d).job = s.job := rfl
@[simp] theorem State.drawDigit_wait (P : Params) (d : Fin nGlyphs) (s : State) : (s.drawDigit P d).wait = s.wait := rfl
@[simp] theorem State.drawDigit_bitT (P : Params) (d : Fin nGlyphs) (s : State) : (s.drawDigit P d).bitT = s.bitT := rfl
@[simp] theorem State.drawDigit_txByte (P : Params) (d : Fin nGlyphs) (s : State) : (s.drawDigit P d).txByte = s.txByte := rfl
@[simp] theorem State.drawDigit_frames (P : Params) (d : Fin nGlyphs) (s : State) : (s.drawDigit P d).frames = s.frames := rfl

/-! Emitting leaves BUF alone (R97). -/

@[simp] theorem State.emitFrame_buf (P : Params) (s : State) : (s.emitFrame P).buf = s.buf := rfl
@[simp] theorem State.emitFrame_phase (P : Params) (s : State) : (s.emitFrame P).phase = s.phase := rfl
@[simp] theorem State.emitFrame_cur (P : Params) (s : State) : (s.emitFrame P).cur = s.cur := rfl
@[simp] theorem State.emitFrame_resp (P : Params) (s : State) : (s.emitFrame P).resp = s.resp := rfl
@[simp] theorem State.emitFrame_respValid (P : Params) (s : State) : (s.emitFrame P).respValid = s.respValid := rfl
@[simp] theorem State.emitFrame_fifo (P : Params) (s : State) : (s.emitFrame P).fifo = s.fifo := rfl
@[simp] theorem State.emitFrame_shift (P : Params) (s : State) : (s.emitFrame P).shift = s.shift := rfl
@[simp] theorem State.emitFrame_nbit (P : Params) (s : State) : (s.emitFrame P).nbit = s.nbit := rfl
@[simp] theorem State.emitFrame_gapt (P : Params) (s : State) : (s.emitFrame P).gapt = P.gapCycles := rfl
@[simp] theorem State.emitFrame_dout (P : Params) (s : State) : (s.emitFrame P).dout = s.dout := rfl
@[simp] theorem State.emitFrame_port (P : Params) (s : State) : (s.emitFrame P).port = s.port := rfl
@[simp] theorem State.emitFrame_events (P : Params) (s : State) : (s.emitFrame P).events = s.events ++ frameEvents s.buf := rfl
@[simp] theorem State.emitFrame_responses (P : Params) (s : State) : (s.emitFrame P).responses = s.responses := rfl
@[simp] theorem State.emitFrame_job (P : Params) (s : State) : (s.emitFrame P).job = s.job := rfl
@[simp] theorem State.emitFrame_wait (P : Params) (s : State) : (s.emitFrame P).wait = s.wait := rfl
@[simp] theorem State.emitFrame_bitT (P : Params) (s : State) : (s.emitFrame P).bitT = s.bitT := rfl
@[simp] theorem State.emitFrame_txByte (P : Params) (s : State) : (s.emitFrame P).txByte = s.txByte := rfl
@[simp] theorem State.emitFrame_frames (P : Params) (s : State) : (s.emitFrame P).frames = s.frames + 1 := rfl

/-! Reset (R35, R135). -/

@[simp] theorem State.inReset_buf (s : State) : s.inReset.buf = [] := rfl
@[simp] theorem State.inReset_phase (s : State) : s.inReset.phase = .init := rfl
@[simp] theorem State.inReset_cur (s : State) : s.inReset.cur = some ⟨0, .g⟩ := rfl
@[simp] theorem State.inReset_resp (s : State) : s.inReset.resp = 0x00000000#32 := rfl
@[simp] theorem State.inReset_respValid (s : State) : s.inReset.respValid = false := rfl
@[simp] theorem State.inReset_fifo (s : State) : s.inReset.fifo = [] := rfl
@[simp] theorem State.inReset_shift (s : State) : s.inReset.shift = 0x00#8 := rfl
@[simp] theorem State.inReset_nbit (s : State) : s.inReset.nbit = 0 := rfl
@[simp] theorem State.inReset_gapt (s : State) : s.inReset.gapt = 0 := rfl
@[simp] theorem State.inReset_dout (s : State) : s.inReset.dout = false := rfl
@[simp] theorem State.inReset_port (s : State) : s.inReset.port = s.port := rfl
@[simp] theorem State.inReset_events (s : State) : s.inReset.events = s.events := rfl
@[simp] theorem State.inReset_responses (s : State) : s.inReset.responses = s.responses := rfl
@[simp] theorem State.inReset_job (s : State) : s.inReset.job = none := rfl
@[simp] theorem State.inReset_wait (s : State) : s.inReset.wait = 0 := rfl
@[simp] theorem State.inReset_bitT (s : State) : s.inReset.bitT = 0 := rfl
@[simp] theorem State.inReset_txByte (s : State) : s.inReset.txByte = 0x00#8 := rfl
@[simp] theorem State.inReset_frames (s : State) : s.inReset.frames = s.frames := rfl

/-! A command in progress is over (R71). -/

@[simp] theorem State.retire_buf (s : State) : s.retire.buf = s.buf := rfl
@[simp] theorem State.retire_phase (s : State) : s.retire.phase = .idle := rfl
@[simp] theorem State.retire_cur (s : State) : s.retire.cur = s.cur := rfl
@[simp] theorem State.retire_resp (s : State) : s.retire.resp = s.resp := rfl
@[simp] theorem State.retire_respValid (s : State) : s.retire.respValid = s.respValid := rfl
@[simp] theorem State.retire_fifo (s : State) : s.retire.fifo = s.fifo := rfl
@[simp] theorem State.retire_shift (s : State) : s.retire.shift = s.shift := rfl
@[simp] theorem State.retire_nbit (s : State) : s.retire.nbit = s.nbit := rfl
@[simp] theorem State.retire_gapt (s : State) : s.retire.gapt = s.gapt := rfl
@[simp] theorem State.retire_dout (s : State) : s.retire.dout = s.dout := rfl
@[simp] theorem State.retire_port (s : State) : s.retire.port = s.port := rfl
@[simp] theorem State.retire_events (s : State) : s.retire.events = s.events := rfl
@[simp] theorem State.retire_responses (s : State) : s.retire.responses = s.responses := rfl
@[simp] theorem State.retire_job (s : State) : s.retire.job = none := rfl
@[simp] theorem State.retire_wait (s : State) : s.retire.wait = 0 := rfl
@[simp] theorem State.retire_bitT (s : State) : s.retire.bitT = s.bitT := rfl
@[simp] theorem State.retire_txByte (s : State) : s.retire.txByte = s.txByte := rfl
@[simp] theorem State.retire_frames (s : State) : s.retire.frames = s.frames := rfl

/-! Entry to STREAM (R99). -/

@[simp] theorem State.enterStream_buf (P : Params) (s : State) : (s.enterStream P).buf = s.buf := rfl
@[simp] theorem State.enterStream_phase (P : Params) (s : State) : (s.enterStream P).phase = .stream := rfl
@[simp] theorem State.enterStream_cur (P : Params) (s : State) : (s.enterStream P).cur = some Cursor.start := rfl
@[simp] theorem State.enterStream_resp (P : Params) (s : State) : (s.enterStream P).resp = s.resp := rfl
@[simp] theorem State.enterStream_respValid (P : Params) (s : State) : (s.enterStream P).respValid = s.respValid := rfl
@[simp] theorem State.enterStream_fifo (P : Params) (s : State) : (s.enterStream P).fifo = s.fifo := rfl
@[simp] theorem State.enterStream_shift (P : Params) (s : State) : (s.enterStream P).shift = s.shift := rfl
@[simp] theorem State.enterStream_nbit (P : Params) (s : State) : (s.enterStream P).nbit = s.nbit := rfl
@[simp] theorem State.enterStream_gapt (P : Params) (s : State) : (s.enterStream P).gapt = s.gapt := rfl
@[simp] theorem State.enterStream_dout (P : Params) (s : State) : (s.enterStream P).dout = s.dout := rfl
@[simp] theorem State.enterStream_port (P : Params) (s : State) : (s.enterStream P).port = s.port := rfl
@[simp] theorem State.enterStream_events (P : Params) (s : State) : (s.enterStream P).events = s.events := rfl
@[simp] theorem State.enterStream_responses (P : Params) (s : State) : (s.enterStream P).responses = s.responses := rfl
@[simp] theorem State.enterStream_job (P : Params) (s : State) : (s.enterStream P).job = s.job := rfl
@[simp] theorem State.enterStream_wait (P : Params) (s : State) : (s.enterStream P).wait = P.startup (s.frames - 1) := rfl
@[simp] theorem State.enterStream_bitT (P : Params) (s : State) : (s.enterStream P).bitT = s.bitT := rfl
@[simp] theorem State.enterStream_txByte (P : Params) (s : State) : (s.enterStream P).txByte = s.txByte := rfl
@[simp] theorem State.enterStream_frames (P : Params) (s : State) : (s.enterStream P).frames = s.frames := rfl

/-! Entry to EXEC (R22). -/

@[simp] theorem State.enterExec_buf (n : Nat) (s : State) : (s.enterExec n).buf = s.buf := rfl
@[simp] theorem State.enterExec_phase (n : Nat) (s : State) : (s.enterExec n).phase = .exec := rfl
@[simp] theorem State.enterExec_cur (n : Nat) (s : State) : (s.enterExec n).cur = s.cur := rfl
@[simp] theorem State.enterExec_resp (n : Nat) (s : State) : (s.enterExec n).resp = s.resp := rfl
@[simp] theorem State.enterExec_respValid (n : Nat) (s : State) : (s.enterExec n).respValid = s.respValid := rfl
@[simp] theorem State.enterExec_fifo (n : Nat) (s : State) : (s.enterExec n).fifo = s.fifo := rfl
@[simp] theorem State.enterExec_shift (n : Nat) (s : State) : (s.enterExec n).shift = s.shift := rfl
@[simp] theorem State.enterExec_nbit (n : Nat) (s : State) : (s.enterExec n).nbit = s.nbit := rfl
@[simp] theorem State.enterExec_gapt (n : Nat) (s : State) : (s.enterExec n).gapt = s.gapt := rfl
@[simp] theorem State.enterExec_dout (n : Nat) (s : State) : (s.enterExec n).dout = s.dout := rfl
@[simp] theorem State.enterExec_port (n : Nat) (s : State) : (s.enterExec n).port = s.port := rfl
@[simp] theorem State.enterExec_events (n : Nat) (s : State) : (s.enterExec n).events = s.events := rfl
@[simp] theorem State.enterExec_responses (n : Nat) (s : State) : (s.enterExec n).responses = s.responses := rfl
@[simp] theorem State.enterExec_job (n : Nat) (s : State) : (s.enterExec n).job = s.job := rfl
@[simp] theorem State.enterExec_wait (n : Nat) (s : State) : (s.enterExec n).wait = n := rfl
@[simp] theorem State.enterExec_bitT (n : Nat) (s : State) : (s.enterExec n).bitT = s.bitT := rfl
@[simp] theorem State.enterExec_txByte (n : Nat) (s : State) : (s.enterExec n).txByte = s.txByte := rfl
@[simp] theorem State.enterExec_frames (n : Nat) (s : State) : (s.enterExec n).frames = s.frames := rfl

/-! One send of the emitter (R105). -/

@[simp] theorem State.send_buf (x : Cursor) (s : State) : (s.send x).buf = s.buf := rfl
@[simp] theorem State.send_phase (x : Cursor) (s : State) : (s.send x).phase = s.phase := rfl
@[simp] theorem State.send_cur (x : Cursor) (s : State) : (s.send x).cur = x.advance := rfl
@[simp] theorem State.send_resp (x : Cursor) (s : State) : (s.send x).resp = s.resp := rfl
@[simp] theorem State.send_respValid (x : Cursor) (s : State) : (s.send x).respValid = s.respValid := rfl
@[simp] theorem State.send_fifo (x : Cursor) (s : State) : (s.send x).fifo = s.fifo ++ [s.buf.read x.addr] := rfl
@[simp] theorem State.send_shift (x : Cursor) (s : State) : (s.send x).shift = s.shift := rfl
@[simp] theorem State.send_nbit (x : Cursor) (s : State) : (s.send x).nbit = s.nbit := rfl
@[simp] theorem State.send_gapt (x : Cursor) (s : State) : (s.send x).gapt = s.gapt := rfl
@[simp] theorem State.send_dout (x : Cursor) (s : State) : (s.send x).dout = s.dout := rfl
@[simp] theorem State.send_port (x : Cursor) (s : State) : (s.send x).port = s.port := rfl
@[simp] theorem State.send_events (x : Cursor) (s : State) : (s.send x).events = s.events := rfl
@[simp] theorem State.send_responses (x : Cursor) (s : State) : (s.send x).responses = s.responses := rfl
@[simp] theorem State.send_job (x : Cursor) (s : State) : (s.send x).job = s.job := rfl
@[simp] theorem State.send_wait (x : Cursor) (s : State) : (s.send x).wait = s.wait := rfl
@[simp] theorem State.send_bitT (x : Cursor) (s : State) : (s.send x).bitT = s.bitT := rfl
@[simp] theorem State.send_txByte (x : Cursor) (s : State) : (s.send x).txByte = s.txByte := rfl
@[simp] theorem State.send_frames (x : Cursor) (s : State) : (s.send x).frames = s.frames := rfl

/-! The serializer takes a byte (R107). -/

@[simp] theorem State.load_buf (v : Byte) (rest : List Byte) (s : State) : (s.load v rest).buf = s.buf := rfl
@[simp] theorem State.load_phase (v : Byte) (rest : List Byte) (s : State) : (s.load v rest).phase = s.phase := rfl
@[simp] theorem State.load_cur (v : Byte) (rest : List Byte) (s : State) : (s.load v rest).cur = s.cur := rfl
@[simp] theorem State.load_resp (v : Byte) (rest : List Byte) (s : State) : (s.load v rest).resp = s.resp := rfl
@[simp] theorem State.load_respValid (v : Byte) (rest : List Byte) (s : State) : (s.load v rest).respValid = s.respValid := rfl
@[simp] theorem State.load_fifo (v : Byte) (rest : List Byte) (s : State) : (s.load v rest).fifo = rest := rfl
@[simp] theorem State.load_shift (v : Byte) (rest : List Byte) (s : State) : (s.load v rest).shift = v := rfl
@[simp] theorem State.load_nbit (v : Byte) (rest : List Byte) (s : State) : (s.load v rest).nbit = 8 := rfl
@[simp] theorem State.load_gapt (v : Byte) (rest : List Byte) (s : State) : (s.load v rest).gapt = s.gapt := rfl
@[simp] theorem State.load_dout (v : Byte) (rest : List Byte) (s : State) : (s.load v rest).dout = s.dout := rfl
@[simp] theorem State.load_port (v : Byte) (rest : List Byte) (s : State) : (s.load v rest).port = s.port := rfl
@[simp] theorem State.load_events (v : Byte) (rest : List Byte) (s : State) : (s.load v rest).events = s.events := rfl
@[simp] theorem State.load_responses (v : Byte) (rest : List Byte) (s : State) : (s.load v rest).responses = s.responses := rfl
@[simp] theorem State.load_job (v : Byte) (rest : List Byte) (s : State) : (s.load v rest).job = s.job := rfl
@[simp] theorem State.load_wait (v : Byte) (rest : List Byte) (s : State) : (s.load v rest).wait = s.wait := rfl
@[simp] theorem State.load_bitT (v : Byte) (rest : List Byte) (s : State) : (s.load v rest).bitT = 0 := rfl
@[simp] theorem State.load_txByte (v : Byte) (rest : List Byte) (s : State) : (s.load v rest).txByte = v := rfl
@[simp] theorem State.load_frames (v : Byte) (rest : List Byte) (s : State) : (s.load v rest).frames = s.frames := rfl

/-! The frame's last bit period has ended (R111). -/

@[simp] theorem State.endFrame_buf (s : State) : s.endFrame.buf = s.buf := rfl
@[simp] theorem State.endFrame_phase (s : State) : s.endFrame.phase = .gap := rfl
@[simp] theorem State.endFrame_cur (s : State) : s.endFrame.cur = some Cursor.start := rfl
@[simp] theorem State.endFrame_resp (s : State) : s.endFrame.resp = s.resp := rfl
@[simp] theorem State.endFrame_respValid (s : State) : s.endFrame.respValid = s.respValid := rfl
@[simp] theorem State.endFrame_fifo (s : State) : s.endFrame.fifo = s.fifo := rfl
@[simp] theorem State.endFrame_shift (s : State) : s.endFrame.shift = s.shift := rfl
@[simp] theorem State.endFrame_nbit (s : State) : s.endFrame.nbit = s.nbit := rfl
@[simp] theorem State.endFrame_gapt (s : State) : s.endFrame.gapt = 0 := rfl
@[simp] theorem State.endFrame_dout (s : State) : s.endFrame.dout = s.dout := rfl
@[simp] theorem State.endFrame_port (s : State) : s.endFrame.port = s.port := rfl
@[simp] theorem State.endFrame_events (s : State) : s.endFrame.events = s.events := rfl
@[simp] theorem State.endFrame_responses (s : State) : s.endFrame.responses = s.responses := rfl
@[simp] theorem State.endFrame_job (s : State) : s.endFrame.job = s.job := rfl
@[simp] theorem State.endFrame_wait (s : State) : s.endFrame.wait = s.wait := rfl
@[simp] theorem State.endFrame_bitT (s : State) : s.endFrame.bitT = s.bitT := rfl
@[simp] theorem State.endFrame_txByte (s : State) : s.endFrame.txByte = 0x00#8 := rfl
@[simp] theorem State.endFrame_frames (s : State) : s.endFrame.frames = s.frames := rfl

/-! The host presents a word (R139). -/

@[simp] theorem State.present_buf (w : Word) (s : State) : (s.present w).buf = s.buf := rfl
@[simp] theorem State.present_phase (w : Word) (s : State) : (s.present w).phase = s.phase := rfl
@[simp] theorem State.present_cur (w : Word) (s : State) : (s.present w).cur = s.cur := rfl
@[simp] theorem State.present_resp (w : Word) (s : State) : (s.present w).resp = s.resp := rfl
@[simp] theorem State.present_respValid (w : Word) (s : State) : (s.present w).respValid = s.respValid := rfl
@[simp] theorem State.present_fifo (w : Word) (s : State) : (s.present w).fifo = s.fifo := rfl
@[simp] theorem State.present_shift (w : Word) (s : State) : (s.present w).shift = s.shift := rfl
@[simp] theorem State.present_nbit (w : Word) (s : State) : (s.present w).nbit = s.nbit := rfl
@[simp] theorem State.present_gapt (w : Word) (s : State) : (s.present w).gapt = s.gapt := rfl
@[simp] theorem State.present_dout (w : Word) (s : State) : (s.present w).dout = s.dout := rfl
@[simp] theorem State.present_port (w : Word) (s : State) : (s.present w).port = ⟨false, true, w⟩ := rfl
@[simp] theorem State.present_events (w : Word) (s : State) : (s.present w).events = s.events := rfl
@[simp] theorem State.present_responses (w : Word) (s : State) : (s.present w).responses = s.responses := rfl
@[simp] theorem State.present_job (w : Word) (s : State) : (s.present w).job = s.job := rfl
@[simp] theorem State.present_wait (w : Word) (s : State) : (s.present w).wait = s.wait := rfl
@[simp] theorem State.present_bitT (w : Word) (s : State) : (s.present w).bitT = s.bitT := rfl
@[simp] theorem State.present_txByte (w : Word) (s : State) : (s.present w).txByte = s.txByte := rfl
@[simp] theorem State.present_frames (w : Word) (s : State) : (s.present w).frames = s.frames := rfl

/-! The host presents nothing. -/

@[simp] theorem State.release_buf (s : State) : s.release.buf = s.buf := rfl
@[simp] theorem State.release_phase (s : State) : s.release.phase = s.phase := rfl
@[simp] theorem State.release_cur (s : State) : s.release.cur = s.cur := rfl
@[simp] theorem State.release_resp (s : State) : s.release.resp = s.resp := rfl
@[simp] theorem State.release_respValid (s : State) : s.release.respValid = s.respValid := rfl
@[simp] theorem State.release_fifo (s : State) : s.release.fifo = s.fifo := rfl
@[simp] theorem State.release_shift (s : State) : s.release.shift = s.shift := rfl
@[simp] theorem State.release_nbit (s : State) : s.release.nbit = s.nbit := rfl
@[simp] theorem State.release_gapt (s : State) : s.release.gapt = s.gapt := rfl
@[simp] theorem State.release_dout (s : State) : s.release.dout = s.dout := rfl
@[simp] theorem State.release_port (s : State) : s.release.port = ⟨false, false, s.port.cmd⟩ := rfl
@[simp] theorem State.release_events (s : State) : s.release.events = s.events := rfl
@[simp] theorem State.release_responses (s : State) : s.release.responses = s.responses := rfl
@[simp] theorem State.release_job (s : State) : s.release.job = s.job := rfl
@[simp] theorem State.release_wait (s : State) : s.release.wait = s.wait := rfl
@[simp] theorem State.release_bitT (s : State) : s.release.bitT = s.bitT := rfl
@[simp] theorem State.release_txByte (s : State) : s.release.txByte = s.txByte := rfl
@[simp] theorem State.release_frames (s : State) : s.release.frames = s.frames := rfl

/-! What INIT leaves (R136). -/

@[simp] theorem State.afterInit_buf (P : Params) (s : State) : (s.afterInit P).buf = s.buf := rfl
@[simp] theorem State.afterInit_phase (P : Params) (s : State) : (s.afterInit P).phase = .idle := rfl
@[simp] theorem State.afterInit_cur (P : Params) (s : State) : (s.afterInit P).cur = s.cur := rfl
@[simp] theorem State.afterInit_resp (P : Params) (s : State) : (s.afterInit P).resp = s.resp := rfl
@[simp] theorem State.afterInit_respValid (P : Params) (s : State) : (s.afterInit P).respValid = s.respValid := rfl
@[simp] theorem State.afterInit_fifo (P : Params) (s : State) : (s.afterInit P).fifo = s.fifo := rfl
@[simp] theorem State.afterInit_shift (P : Params) (s : State) : (s.afterInit P).shift = s.shift := rfl
@[simp] theorem State.afterInit_nbit (P : Params) (s : State) : (s.afterInit P).nbit = s.nbit := rfl
@[simp] theorem State.afterInit_gapt (P : Params) (s : State) : (s.afterInit P).gapt = P.gapCycles := rfl
@[simp] theorem State.afterInit_dout (P : Params) (s : State) : (s.afterInit P).dout = s.dout := rfl
@[simp] theorem State.afterInit_port (P : Params) (s : State) : (s.afterInit P).port = s.port := rfl
@[simp] theorem State.afterInit_events (P : Params) (s : State) : (s.afterInit P).events = s.events := rfl
@[simp] theorem State.afterInit_responses (P : Params) (s : State) : (s.afterInit P).responses = s.responses := rfl
@[simp] theorem State.afterInit_job (P : Params) (s : State) : (s.afterInit P).job = s.job := rfl
@[simp] theorem State.afterInit_wait (P : Params) (s : State) : (s.afterInit P).wait = s.wait := rfl
@[simp] theorem State.afterInit_bitT (P : Params) (s : State) : (s.afterInit P).bitT = s.bitT := rfl
@[simp] theorem State.afterInit_txByte (P : Params) (s : State) : (s.afterInit P).txByte = s.txByte := rfl
@[simp] theorem State.afterInit_frames (P : Params) (s : State) : (s.afterInit P).frames = s.frames := rfl

end Sys2Proof.Machine
end

