-- ==== Sys2Proof/Laws/Transaction.lean ====
section
/-!
SUPPORT. What one transaction can do, said once: by what the word makes the block do (`jobOf`), and for every command at
once. And what acceptance can answer.
-/

namespace Sys2Proof.Machine

/-! ## Range checks and response words -/

theorem digit?_eq_some {d : Nat} {e : Fin nGlyphs} : digit? d = some e ↔ e.val = d := by
  unfold digit?
  constructor
  · intro h
    split at h
    · cases h; rfl
    · cases h
  · rintro rfl
    simp

theorem digit?_eq_none {d : Nat} : digit? d = none ↔ nGlyphs ≤ d := by
  unfold digit?
  split <;> simp <;> omega

theorem coordInRange_iff {i j : Nat} : coordInRange i j = true ↔ i < nRows ∧ j < nCols := by
  simp [coordInRange]

theorem pixelInRange_iff {p : Nat} : pixelInRange p = true ↔ p < nPix := by
  simp [pixelInRange]

theorem phys_lt_of_coord {i j : Nat} (h : coordInRange i j = true) : phys i j < nPix := by
  rw [coordInRange_iff] at h
  exact phys_lt (⟨i, h.1⟩, ⟨j, h.2⟩)

theorem respAllowed_responseWord (st : Status) : respAllowed (responseWord st 0) = true := by
  cases st <;> decide

theorem respAllowed_map {n : Nat} (h : n < nPix) : respAllowed (responseWord .ok n) = true := by
  have : ∀ n : Fin nPix, respAllowed (responseWord .ok n.val) = true := by decide
  exact this ⟨n, h⟩

/-! ## Acceptance -/

theorem cmdReady_iff (s : State) : s.cmdReady = true ↔ s.phase = .idle ∧ s.port.rst = false := by
  simp [State.cmdReady]

/-- An accepted command is its body. -/
theorem accept_ready {s : State} (h : s.cmdReady = true) (body : State → State) : accept s body = .next (body s) := by
  simp [accept, h]

/-- A command presented to a block that is not ready, and not stuck in FAULT, changes nothing. -/
theorem accept_busy {s : State} (h : s.cmdReady = false) (hf : ¬ (s.phase = .fault ∧ s.port.rst = false))
    (body : State → State) : accept s body = .next s := by
  simp [accept, h, hf]

/-- A command presented in FAULT has no step. -/
theorem accept_fault {s : State} (h : s.phase = .fault) (hr : s.port.rst = false) (body : State → State) :
    accept s body = .fault .fatalStartUp := by
  simp [accept, State.cmdReady, h, hr]

/-- All that acceptance can answer as a next state: the body's state when ready, the same state otherwise. -/
theorem accept_next {s t : State} {body : State → State} (h : accept s body = .next t) :
    (s.cmdReady = true ∧ t = body s) ∨ (s.cmdReady = false ∧ t = s) := by
  unfold accept at h
  split at h
  · cases h; exact .inl ⟨by assumption, rfl⟩
  · split at h
    · cases h
    · cases h; exact .inr ⟨by simp_all, rfl⟩

/-- `exec` is the pseudocode behind acceptance, at the block's own parameters. -/
theorem exec_eq_accept (i : Instr) (s : State) : exec i s = accept s (perform Config.params i) := by
  cases i <;> rfl

theorem exec_ready {s : State} (h : s.cmdReady = true) (i : Instr) : exec i s = .next (perform Config.params i s) := by
  rw [exec_eq_accept, accept_ready h]

/-! ## By job -/

theorem jobOf_emit {w : Word} : jobOf w = .emit ↔ decode w = .ok .emit := by
  unfold jobOf
  split <;> simp_all
  split <;> simp

theorem jobOf_render {w : Word} {d : Fin nGlyphs} : jobOf w = .render d ↔ decode w = .ok (.render d.val) := by
  unfold jobOf
  split <;> simp_all
  next e he =>
    split
    · next hn => simp; rintro rfl; simp [digit?] at hn
    · next e hs =>
      rw [digit?_eq_some] at hs
      simp [← hs, Fin.ext_iff]

/-- EMIT's transaction. -/
theorem transact_emit {P : Params} {w : Word} (h : jobOf w = .emit) (s : State) :
    transact P w s = (s.emitFrame P).respond .ok 0 := by
  simp [transact, jobOf_emit.mp h, perform, doEmit]

/-- The transaction of RENDER of a digit 0 to 9. -/
theorem transact_render {P : Params} {w : Word} {d : Fin nGlyphs} (h : jobOf w = .render d) (s : State) :
    transact P w s = ((s.clearBuf.drawDigit P d).emitFrame P).clearBuf.respond .ok 0 := by
  have hd : digit? d.val = some d := digit?_eq_some.mpr rfl
  simp [transact, jobOf_render.mp h, perform, doRender, hd]

/-- Every other transaction writes BUF and the response at most; BUF keeps its canonical form. -/
theorem transact_short {P : Params} {w : Word} {s : State} (hb : s.buf.wf = true) (h : jobOf w = .short) :
    ∃ m r, m.wf = true ∧ respAllowed r = true ∧
      transact P w s = { s with buf := m, resp := r, respValid := true, responses := s.responses ++ [r] } := by
  unfold transact
  split
  · exact ⟨s.buf, _, hb, respAllowed_responseWord .illegal, rfl⟩
  · next i hi =>
    cases i with
    | clear => exact ⟨_, _, Memory.wf_zero, respAllowed_responseWord .ok, rfl⟩
    | writePixel p g r b =>
      simp only [perform, doWritePixel]
      split
      · next hp => exact ⟨_, _, Memory.wf_setPixel _ _ ⟨g, r, b⟩ hb (pixelInRange_iff.mp hp),
          respAllowed_responseWord .ok, rfl⟩
      · exact ⟨s.buf, _, hb, respAllowed_responseWord .outOfRange, rfl⟩
    | draw d =>
      simp only [perform, doDraw]
      split
      · exact ⟨s.buf, _, hb, respAllowed_responseWord .outOfRange, rfl⟩
      · exact ⟨_, _, Memory.wf_draw _ _ hb, respAllowed_responseWord .ok, rfl⟩
    | emit => rw [jobOf_emit.mpr hi] at h; cases h
    | render d =>
      simp only [perform, doRender]
      split
      · exact ⟨s.buf, _, hb, respAllowed_responseWord .outOfRange, rfl⟩
      · next e he =>
        rw [digit?_eq_some] at he
        subst he
        rw [jobOf_render.mpr hi] at h; cases h
    | map i j =>
      simp only [perform, doMap]
      split
      · next hc => exact ⟨s.buf, _, hb, respAllowed_map (phys_lt_of_coord hc), rfl⟩
      · exact ⟨s.buf, _, hb, respAllowed_responseWord .outOfRange, rfl⟩

/-- What such a transaction writes depends on BUF and the word alone (R73). -/
theorem transact_short_of_buf {P : Params} {w : Word} (h : jobOf w = .short) {s t : State} (hb : s.buf = t.buf) :
    transact P w t = { t with
      buf := (transact P w s).buf, resp := (transact P w s).resp, respValid := true,
      responses := t.responses ++ [(transact P w s).resp] } := by
  unfold transact
  cases hi : decode w with
  | error e => simp [doIllegal, State.refuse, State.respond, hb]
  | ok i =>
    cases i with
    | clear => simp [perform, doClear, State.respond, State.clearBuf]
    | writePixel p g r b => simp only [perform, doWritePixel, State.respond, State.refuse]; split <;> simp [hb]
    | draw d => simp only [perform, doDraw]; split <;> simp [State.respond, State.refuse, State.drawDigit, hb]
    | emit => rw [jobOf_emit.mpr hi] at h; cases h
    | render d =>
      simp only [perform, doRender]
      split
      · simp [State.respond, State.refuse, hb]
      · next e he =>
        rw [digit?_eq_some] at he
        subst he
        rw [jobOf_render.mpr hi] at h; cases h
    | map i j => simp only [perform, doMap, State.respond, State.refuse]; split <;> simp [hb]

/-! ## What any command may change -/

/-- A command writes BUF, the response, the output events, GAPT and the count of frames; no other field. BUF keeps its
canonical form and RESP holds an allowed word; exactly one response is given. -/
theorem perform_spec (P : Params) (i : Instr) (s : State) (hb : s.buf.wf = true) :
    ∃ m r es g f, m.wf = true ∧ respAllowed r = true ∧ (g = s.gapt ∨ g = P.gapCycles) ∧
      perform P i s = { s with
        buf := m, resp := r, respValid := true, responses := s.responses ++ [r],
        events := s.events ++ es, gapt := g, frames := f } := by
  cases i with
  | clear => exact ⟨_, _, [], s.gapt, s.frames, Memory.wf_zero, respAllowed_responseWord .ok, .inl rfl, by simp [perform, doClear, State.clearBuf, State.respond]⟩
  | writePixel p g r b =>
    simp only [perform, doWritePixel]
    split
    · next hp => exact ⟨_, _, [], s.gapt, s.frames, Memory.wf_setPixel _ _ ⟨g, r, b⟩ hb (pixelInRange_iff.mp hp),
        respAllowed_responseWord .ok, .inl rfl, by simp [State.respond]⟩
    · exact ⟨s.buf, _, [], s.gapt, s.frames, hb, respAllowed_responseWord .outOfRange, .inl rfl, by simp [State.refuse, State.respond]⟩
  | draw d =>
    simp only [perform, doDraw]
    split
    · exact ⟨s.buf, _, [], s.gapt, s.frames, hb, respAllowed_responseWord .outOfRange, .inl rfl, by simp [State.refuse, State.respond]⟩
    · next e he => exact ⟨_, _, [], s.gapt, s.frames, Memory.wf_draw _ (P.glyph e) hb, respAllowed_responseWord .ok, .inl rfl, by simp [State.drawDigit, State.respond]⟩
  | emit => exact ⟨s.buf, _, _, _, _, hb, respAllowed_responseWord .ok, .inr rfl, rfl⟩
  | render d =>
    simp only [perform, doRender]
    split
    · exact ⟨s.buf, _, [], s.gapt, s.frames, hb, respAllowed_responseWord .outOfRange, .inl rfl, by simp [State.refuse, State.respond]⟩
    · exact ⟨_, _, _, _, _, Memory.wf_zero, respAllowed_responseWord .ok, .inr rfl, rfl⟩
  | map i j =>
    simp only [perform, doMap]
    split
    · next hc => exact ⟨s.buf, _, [], s.gapt, s.frames, hb, respAllowed_map (phys_lt_of_coord hc), .inl rfl, by simp [State.respond]⟩
    · exact ⟨s.buf, _, [], s.gapt, s.frames, hb, respAllowed_responseWord .outOfRange, .inl rfl, by simp [State.refuse, State.respond]⟩

end Sys2Proof.Machine
end

