-- ==== Sys2Proof/Laws/Wire.lean ====
section
/-!
SUPPORT. What one clock edge can do, phase by phase, and that each phase's edge keeps the invariant of every phase. The
statement over all edges and all steps is assembled from these.
-/

namespace Sys2Proof

/-! ## Numbers -/

theorem Params.gapCycles_pos (P : Params) : 0 < P.gapCycles := by
  have hd : 0 < P.tGap.2 * P.fClk.2 := Nat.mul_pos (by simp [Params.tGap]) (by simp [Params.fClk])
  have hn : 0 < P.tGap.1 * P.fClk.1 := Nat.mul_pos (by simp [Params.tGap]) (by simp [Params.fClk])
  unfold Params.gapCycles ceilDiv
  exact Nat.div_pos (by omega) hd

theorem Params.high_pos (P : Params) (b : Bool) : 0 < P.high b := by
  cases b <;> simp [Params.high, Params.t0h, Params.t1h]

theorem Params.high_lt_tBit (P : Params) (b : Bool) : P.high b < P.tBit := by
  cases b
  · simp [Params.high, Params.t0h, Params.t1h, Params.tBit]; omega
  · simp [Params.high, Params.t0h, Params.t1h, Params.tBit]

theorem Params.tBit_ge (P : Params) : 3 ≤ P.tBit := by
  simp only [Params.tBit, Params.t1h, Params.t0h]; omega

end Sys2Proof

namespace Sys2Proof.Machine

/-! ## The edge -/

/-- The state with `dout` at the level of the bit being sent. -/
def State.levelled (P : Params) (t : State) : State := { t with dout := lineLevel P t }

/-- RESP_VALID lasts one cycle. -/
def State.quiet (s : State) : State := { s with respValid := false }

theorem clockEdge_reset {P : Params} {s : State} (h : s.port.rst = true) : clockEdge P s = s.inReset := by
  simp [clockEdge, h]

theorem clockEdge_run {P : Params} {s : State} (h : s.port.rst = false) :
    clockEdge P s = (phaseEdge P s.quiet).levelled P := by
  simp [clockEdge, h, State.levelled, State.quiet]

/-- The line is low in every phase but STREAM (R109). -/
theorem lineLevel_eq_false {P : Params} {s : State} (h : s.phase ≠ .stream) : lineLevel P s = false := by
  simp [lineLevel, h]

/-! ## Each phase keeps the invariant -/

theorem inReset_inv (P : Params) (s : State) : s.inReset.Inv P := by
  refine ⟨rfl, by simp, respAllowed_responseWord .ok, by simp [lineLevel], ?_⟩
  simp [State.phaseInv, State.streamerAtRest, Cursor.start, Memory.zero, P.gapCycles_pos]

theorem initEdge_inv {P : Params} {s : State} (h : s.Inv P) (hp : s.phase = .init) :
    ((initEdge P s.quiet).levelled P).Inv P := by
  have hph := h.phase
  simp only [State.phaseInv, hp] at hph
  obtain ⟨⟨h1, h2, h3, h4, h5, h6, h7⟩, hj, hw, hg, hc, hb, hr, hv⟩ := hph
  unfold initEdge
  split
  · refine ⟨h.buf, h.fifo, h.resp, rfl, ?_⟩
    simp_all [State.phaseInv, State.levelled, State.quiet, State.streamerAtRest, lineLevel]
  · split
    all_goals
      refine ⟨h.buf, h.fifo, h.resp, rfl, ?_⟩
      simp_all [State.phaseInv, State.levelled, State.quiet, State.streamerAtRest, lineLevel]

theorem idle_inv {P : Params} {s : State} (h : s.Inv P) (hp : s.phase = .idle) : (s.quiet.levelled P).Inv P := by
  have hph := h.phase
  simp only [State.phaseInv, hp] at hph
  refine ⟨h.buf, h.fifo, h.resp, rfl, ?_⟩
  simp_all [State.phaseInv, State.levelled, State.quiet, State.streamerAtRest, lineLevel]

theorem acceptEdge_inv {P : Params} {s : State} (h : s.Inv P) (hp : s.phase = .idle) :
    ((acceptEdge P s.quiet).levelled P).Inv P := by
  have hph := h.phase
  simp only [State.phaseInv, hp] at hph
  obtain ⟨⟨h1, h2, h3, h4, h5, h6, h7⟩, hj, hw, hg⟩ := hph
  have hl : 1 ≤ P.lCmd := by simp [Params.lCmd]
  have hr : ∀ n, 1 ≤ P.renderCycles n := by simp [Params.renderCycles]
  unfold acceptEdge
  simp only
  split
  all_goals
    refine ⟨h.buf, h.fifo, h.resp, rfl, ?_⟩
    simp_all [State.phaseInv, State.levelled, State.quiet, State.streamerAtRest, lineLevel, State.beforeFirstBit,
      Cursor.start, nPix]

theorem execEdge_inv {P : Params} {s : State} (h : s.Inv P) (hp : s.phase = .exec) :
    ((execEdge P s.quiet).levelled P).Inv P := by
  have hph := h.phase
  simp only [State.phaseInv, hp] at hph
  obtain ⟨⟨h1, h2, h3, h4, h5, h6, h7⟩, hw, hg, w, hj, hd⟩ := hph
  have hjq : s.quiet.job = some w := hj
  unfold execEdge
  split
  · simp only [hjq]
    unfold completeExec
    split
    · next hs =>
      obtain ⟨m, r, hm, hra, ht⟩ := transact_short (P := P) (s := s.quiet) h.buf hs
      rw [ht]
      refine ⟨hm, h.fifo, hra, rfl, ?_⟩
      simp_all [State.phaseInv, State.levelled, State.quiet, State.streamerAtRest, lineLevel]
    · next he => exact absurd he hd
    · refine ⟨Memory.wf_draw _ _ Memory.wf_zero, h.fifo, h.resp, rfl, ?_⟩
      simp_all [State.phaseInv, State.levelled, State.quiet, lineLevel, State.beforeFirstBit, Cursor.start, nPix]
  · refine ⟨h.buf, h.fifo, h.resp, rfl, ?_⟩
    simp_all [State.phaseInv, State.levelled, State.quiet, State.streamerAtRest, lineLevel]
    omega

theorem gapEdge_inv {P : Params} {s : State} (h : s.Inv P) (hp : s.phase = .gap) :
    ((gapEdge P s.quiet).levelled P).Inv P := by
  have hph := h.phase
  simp only [State.phaseInv, hp] at hph
  obtain ⟨⟨h1, h2, h3, h4, h5, h6, h7⟩, hw, hg, w, hj, hd⟩ := hph
  unfold gapEdge
  split
  · refine ⟨h.buf, h.fifo, h.resp, rfl, ?_⟩
    simp_all [State.phaseInv, State.levelled, State.quiet, State.streamerAtRest, lineLevel]
  · unfold finishFrame
    simp only
    split
    · refine ⟨Memory.wf_zero, h.fifo, respAllowed_responseWord .ok, rfl, ?_⟩
      simp_all [State.phaseInv, State.levelled, State.quiet, State.streamerAtRest, lineLevel]
    all_goals
      refine ⟨h.buf, h.fifo, respAllowed_responseWord .ok, rfl, ?_⟩
      simp_all [State.phaseInv, State.levelled, State.quiet, State.streamerAtRest, lineLevel]

/-! ## STREAM -/

/-- The cursor stays among the 25 pixels as it advances (R99). -/
theorem Cursor.advance_lt {x y : Cursor} (h : x.k < nPix) (hy : x.advance = some y) : y.k < nPix := by
  unfold Cursor.advance at hy
  split at hy
  · cases hy; exact h
  · cases hy; exact h
  · split at hy
    · cases hy; simp only [nPix]; omega
    · cases hy

/-- Advancing the cursor is one byte address further, and DONE is past the last byte (R41, R99). -/
theorem Cursor.addr_advance {x : Cursor} (h : x.k < nPix) :
    match x.advance with
    | some y => y.addr = x.addr + 1
    | none => x.addr + 1 = nBytes := by
  obtain ⟨k, c⟩ := x
  simp only [nPix] at h
  cases c
  · simp [Cursor.advance, Cursor.addr, chanAddr, Chan.index]
  · simp [Cursor.advance, Cursor.addr, chanAddr, Chan.index]
  · by_cases hk : k + 1 < nPix
    · simp [Cursor.advance, Cursor.addr, chanAddr, Chan.index, hk, nChan]; omega
    · simp [Cursor.advance, Cursor.addr, chanAddr, Chan.index, hk, nChan, nBytes]; simp only [nPix] at hk; omega

theorem Cursor.addr_lt {x : Cursor} (h : x.k < nPix) : x.addr < nBytes := chanAddr_lt h x.c

/-- What the serializer leaves in the middle of a byte: the next cycle of the bit, the next bit, the next byte, or the end
of the frame. -/
theorem serializerEdge_insideByte {P : Params} {s : State} (hb : s.insideByte P) :
    (serializerEdge P s = { s with bitT := s.bitT + 1 } ∧ s.bitT + 1 < P.tBit) ∨
    (serializerEdge P s = { s with shift := s.shift <<< 1, nbit := s.nbit - 1, bitT := 0 } ∧ 2 ≤ s.nbit ∧
      s.bitT + 1 = P.tBit) ∨
    (∃ v rest, s.fifo = v :: rest ∧ s.nbit = 1 ∧ s.bitT + 1 = P.tBit ∧
      serializerEdge P s = { s with
        events := s.events ++ [.byte s.txByte], fifo := rest, shift := v, txByte := v, nbit := 8, bitT := 0 }) ∨
    (s.fifo = [] ∧ s.cur = none ∧ s.nbit = 1 ∧ s.bitT + 1 = P.tBit ∧
      serializerEdge P s = { s with
        events := s.events ++ [.byte s.txByte], phase := .gap, gapt := 0, cur := some Cursor.start,
        shift := s.shift <<< 1, nbit := 0, bitT := 0, txByte := 0x00#8 }) := by
  obtain ⟨hw, h1, h8, ht, hsh, hf⟩ := hb
  have hT := P.tBit_ge
  have hn0 : s.nbit ≠ 0 := by omega
  by_cases hbit : s.bitT + 1 < P.tBit
  · left; simp [serializerEdge, hn0, hbit]
  · have hbit' : s.bitT + 1 = P.tBit := by omega
    by_cases hn : s.nbit = 1
    · rcases hf with hc | hf | ⟨h, -⟩
      · cases hfi : s.fifo with
        | nil =>
          right; right; right
          refine ⟨rfl, hc, hn, hbit', ?_⟩
          simp [serializerEdge, hn, hbit, State.endBit, State.endByte, hfi, hc, State.endFrame]
        | cons v rest =>
          right; right; left
          refine ⟨v, rest, rfl, hn, hbit', ?_⟩
          simp [serializerEdge, hn, hbit, State.endBit, State.endByte, hfi, State.load]
      · cases hfi : s.fifo with
        | nil => exact absurd hfi hf
        | cons v rest =>
          right; right; left
          refine ⟨v, rest, rfl, hn, hbit', ?_⟩
          simp [serializerEdge, hn, hbit, State.endBit, State.endByte, hfi, State.load]
      · simp only [chanBits] at h; omega
    · right; left
      refine ⟨?_, by omega, hbit'⟩
      simp [serializerEdge, hn0, hbit, State.endBit, show s.nbit - 1 ≠ 0 by omega]

theorem shift_step (v : Byte) (n : Nat) (h1 : 1 ≤ n) (h8 : n ≤ 8) : (v <<< (8 - n)) <<< 1 = v <<< (8 - (n - 1)) := by
  rw [← BitVec.shiftLeft_add]
  congr 1
  omega

theorem shift_out (v : Byte) : (v <<< 7) <<< 1 = 0x00#8 := by
  revert v; decide

theorem insideByte_load {P : Params} {s : State} (v : Byte) (rest : List Byte) (hw : s.wait = 0) :
    (s.load v rest).insideByte P := by
  have := P.tBit_ge
  refine ⟨hw, by simp, by simp, by simp; omega, by simp, .inr (.inr ⟨rfl, rfl⟩)⟩

/-- The emitter's part of a STREAM edge keeps "inside a byte": it only adds to FIFO (R105). -/
theorem insideByte_send {P : Params} {s : State} (x : Cursor) (h : s.insideByte P) : (s.send x).insideByte P := by
  obtain ⟨hw, h1, h8, ht, hsh, -⟩ := h
  exact ⟨hw, h1, h8, ht, hsh, .inr (.inl (by simp))⟩

/-! The three shapes of a STREAM edge after start-up (R105). -/

theorem streamEdge_done {P : Params} {s : State} (hw : s.wait = 0) (hc : s.cur = none) :
    streamEdge P s = serializerEdge P s := by
  simp [streamEdge, hw, hc]

theorem streamEdge_send {P : Params} {s : State} {x : Cursor} (hw : s.wait = 0) (hc : s.cur = some x)
    (h : s.fifo.length < P.fifoDepth) : streamEdge P s = (serializerEdge P s).send x := by
  simp [streamEdge, hw, hc, h]

theorem streamEdge_full {P : Params} {s : State} {x : Cursor} (hw : s.wait = 0) (hc : s.cur = some x)
    (h : ¬ s.fifo.length < P.fifoDepth) : streamEdge P s = serializerEdge P s := by
  simp [streamEdge, hw, hc, h]

/-- A STREAM edge keeps the invariant (R105 to R111). -/
theorem streamEdge_inv {P : Params} {s : State} (h : s.Inv P) (hp : s.phase = .stream) :
    ((streamEdge P s.quiet).levelled P).Inv P := by
  have hph := h.phase
  simp only [State.phaseInv, hp] at hph
  obtain ⟨hg, hj, hcur, hst⟩ := hph
  have build : ∀ t : State, t.buf = s.buf → t.resp = s.resp → t.phase = .stream → t.gapt = s.gapt → t.job = s.job →
      t.fifo.length ≤ P.fifoDepth → (∀ x, t.cur = some x → x.k < nPix) → (t.beforeFirstBit ∨ t.insideByte P) →
      (t.levelled P).Inv P := fun t hb hr hph hga hjo hf hc hs =>
    ⟨hb ▸ h.buf, hf, hr ▸ h.resp, rfl, by
      simp only [State.phaseInv, State.levelled, hph]
      exact ⟨hga.trans hg, by simpa [hjo] using hj, hc, hs⟩⟩
  have hdepth : 0 < P.fifoDepth := by simp [Params.fifoDepth]
  rcases hst with hbf | hin
  · obtain ⟨hn, hs, ht, hx, hq⟩ := hbf
    rcases hq with ⟨hc, hf⟩ | ⟨hw, hc, hf⟩
    · by_cases hw : 0 < s.wait
      · rw [show streamEdge P s.quiet = { s.quiet with wait := s.wait - 1 } from by simp [streamEdge, State.quiet, hw]]
        exact build _ rfl rfl hp rfl rfl (by simp [State.quiet, hf]) hcur (.inl ⟨hn, hs, ht, hx, .inl ⟨hc, hf⟩⟩)
      · rw [show streamEdge P s.quiet = s.quiet.send Cursor.start from by
          simp [streamEdge, serializerEdge, State.quiet, hw, hc, hf, hn, hdepth]]
        refine build _ rfl rfl hp rfl rfl (by simp [State.quiet, hf]; omega) (fun x hx' => ?_)
          (.inl ⟨hn, hs, ht, hx, .inr ⟨by simpa [State.quiet] using hw, rfl, by simp [State.quiet, hf]⟩⟩)
        exact Cursor.advance_lt (x := Cursor.start) (by decide) hx'
    · have hc' : s.cur = some ⟨0, .r⟩ := hc
      by_cases hroom : 1 < P.fifoDepth
      · rw [show streamEdge P s.quiet = (s.quiet.load (s.buf.read Cursor.start.addr) []).send ⟨0, .r⟩ from by
          simp [streamEdge, serializerEdge, State.quiet, hw, hc', hf, hn, hroom]]
        refine build _ rfl rfl hp rfl rfl (by simp; omega) (fun x hx' => ?_) (.inr (insideByte_send _ (insideByte_load _ _ hw)))
        exact Cursor.advance_lt (x := ⟨0, .r⟩) (by decide) hx'
      · rw [show streamEdge P s.quiet = s.quiet.load (s.buf.read Cursor.start.addr) [] from by
          simp [streamEdge, serializerEdge, State.quiet, hw, hc', hf, hn, hroom]]
        exact build _ rfl rfl hp rfl rfl (by simp) hcur (.inr (insideByte_load _ _ hw))
  · have hin' : s.quiet.insideByte P := hin
    obtain ⟨-, h1, h8, hbt, hsh, hfi⟩ := hin
    have hsent : (x : Cursor) → s.cur = some x → ∀ t : State, t.cur = s.cur → ∀ y, (t.send x).cur = some y → y.k < nPix :=
      fun x hx t _ y hy => Cursor.advance_lt (hcur x hx) hy
    rcases serializerEdge_insideByte hin' with ⟨e, hlt⟩ | ⟨e, hn2, heq⟩ | ⟨v, rest, hf, hn, heq, e⟩ | ⟨hf, hc, hn, heq, e⟩
    · cases hc : s.cur with
      | none =>
        have he : streamEdge P s.quiet = serializerEdge P s.quiet := streamEdge_done hin'.1 hc
        rw [he, e]
        refine build _ rfl rfl hp rfl rfl h.fifo hcur (.inr ⟨hin'.1, h1, h8, hlt, hsh, .inl hc⟩)
      | some x =>
        by_cases hroom : s.fifo.length < P.fifoDepth
        · have he : streamEdge P s.quiet = (serializerEdge P s.quiet).send x :=
            streamEdge_send hin'.1 hc hroom
          rw [he, e]
          exact build _ rfl rfl hp rfl rfl (by simp [State.quiet]; omega) (hsent x hc _ rfl)
            (.inr ⟨hin'.1, h1, h8, hlt, hsh, .inr (.inl (by simp))⟩)
        · have he : streamEdge P s.quiet = serializerEdge P s.quiet := streamEdge_full hin'.1 hc hroom
          rw [he, e]
          refine build _ rfl rfl hp rfl rfl h.fifo hcur (.inr ⟨hin'.1, h1, h8, hlt, hsh, .inr (.inl ?_)⟩)
          intro h0
          have : s.fifo.length = 0 := by simpa [State.quiet] using congrArg List.length h0
          omega
    · have hfi' : s.cur = none ∨ s.fifo ≠ [] := by
        rcases hfi with h | h | ⟨-, h⟩
        · exact .inl h
        · exact .inr h
        · have := P.tBit_ge; have : s.quiet.bitT = s.bitT := rfl; omega
      have hsh' : s.quiet.shift <<< 1 = s.quiet.txByte <<< (8 - (s.quiet.nbit - 1)) := by
        have := shift_step s.txByte s.nbit h1 h8
        rw [← hsh] at this; exact this
      have hn2' : 2 ≤ s.nbit := hn2
      have hT := P.tBit_ge
      cases hc : s.cur with
      | none =>
        have he : streamEdge P s.quiet = serializerEdge P s.quiet := streamEdge_done hin'.1 hc
        rw [he, e]
        exact build _ rfl rfl hp rfl rfl h.fifo hcur
          (.inr ⟨hin'.1, by simp [State.quiet]; omega, by simp [State.quiet]; omega, by simp; omega, hsh', .inl hc⟩)
      | some x =>
        have hne : s.fifo ≠ [] := hfi'.resolve_left (by simp [hc])
        by_cases hroom : s.fifo.length < P.fifoDepth
        · have he : streamEdge P s.quiet = (serializerEdge P s.quiet).send x :=
            streamEdge_send hin'.1 hc hroom
          rw [he, e]
          exact build _ rfl rfl hp rfl rfl (by simp [State.quiet]; omega) (hsent x hc _ rfl)
            (.inr ⟨hin'.1, by simp [State.quiet]; omega, by simp [State.quiet]; omega, by simp; omega, hsh', .inr (.inl (by simp))⟩)
        · have he : streamEdge P s.quiet = serializerEdge P s.quiet := streamEdge_full hin'.1 hc hroom
          rw [he, e]
          exact build _ rfl rfl hp rfl rfl h.fifo hcur
            (.inr ⟨hin'.1, by simp [State.quiet]; omega, by simp [State.quiet]; omega, by simp; omega, hsh', .inr (.inl hne)⟩)
    · have hlen : rest.length + 1 ≤ P.fifoDepth := by
        have := h.fifo; rw [show s.fifo = v :: rest from hf] at this; simpa using this
      have hT := P.tBit_ge
      have hload : ∀ t : State, t.wait = 0 → t.nbit = 8 → t.bitT = 0 → t.shift = t.txByte → t.insideByte P :=
        fun t a b c d => ⟨a, by omega, by rw [b], by omega, by rw [b, d]; simp, .inr (.inr ⟨b, c⟩)⟩
      cases hc : s.cur with
      | none =>
        have he : streamEdge P s.quiet = serializerEdge P s.quiet := streamEdge_done hin'.1 hc
        rw [he, e]
        exact build _ rfl rfl hp rfl rfl (by simp; omega) hcur (.inr (hload _ hin'.1 rfl rfl rfl))
      | some x =>
        by_cases hroom : s.fifo.length < P.fifoDepth
        · have he : streamEdge P s.quiet = (serializerEdge P s.quiet).send x :=
            streamEdge_send hin'.1 hc hroom
          rw [he, e]
          exact build _ rfl rfl hp rfl rfl (by simp; omega) (hsent x hc _ rfl)
            (.inr (insideByte_send _ (hload _ hin'.1 rfl rfl rfl)))
        · have he : streamEdge P s.quiet = serializerEdge P s.quiet := streamEdge_full hin'.1 hc hroom
          rw [he, e]
          exact build _ rfl rfl hp rfl rfl (by simp; omega) hcur (.inr (hload _ hin'.1 rfl rfl rfl))
    · have hc' : s.cur = none := hc
      have hf' : s.fifo = [] := hf
      have hn' : s.nbit = 1 := hn
      have he : streamEdge P s.quiet = serializerEdge P s.quiet := streamEdge_done hin'.1 hc'
      have hs0 : s.shift <<< 1 = 0x00#8 := by rw [hsh, hn']; exact shift_out s.txByte
      rw [he, e]
      refine ⟨h.buf, h.fifo, h.resp, rfl, ?_⟩
      have hw0 : s.wait = 0 := hin'.1
      simp only [State.phaseInv, State.levelled, State.streamerAtRest, State.quiet, hf', hs0, hw0, lineLevel]
      simpa using ⟨P.gapCycles_pos, hj⟩

end Sys2Proof.Machine
end

