-- ==== Sys2Proof/Laws/Frame.lean ====
section
/-!
SUPPORT. Runs of many clock edges without a reset: the countdowns of INIT, EXEC and GAP, and one frame on the wire. The
statements about whole commands at the port and wire level are assembled from these.
-/

namespace Sys2Proof.Machine

/-! ## Many edges -/

@[simp] theorem cycles_nil (P : Params) (s : State) : cycles P s [] = s := rfl
@[simp] theorem cycles_cons (P : Params) (s : State) (i : PortIn) (is : List PortIn) :
    cycles P s (i :: is) = cycles P (clockWith P s i) is := rfl
theorem cycles_append (P : Params) (s : State) (is js : List PortIn) :
    cycles P s (is ++ js) = cycles P (cycles P s is) js := by
  simp [cycles, List.foldl_append]

@[simp] theorem lineTrace_nil (P : Params) (s : State) : lineTrace P s [] = [] := rfl
@[simp] theorem lineTrace_cons (P : Params) (s : State) (i : PortIn) (is : List PortIn) :
    lineTrace P s (i :: is) = (clockWith P s i).dout :: lineTrace P (clockWith P s i) is := rfl
theorem lineTrace_append (P : Params) (s : State) (is js : List PortIn) :
    lineTrace P s (is ++ js) = lineTrace P s is ++ lineTrace P (cycles P s is) js := by
  induction is generalizing s with
  | nil => rfl
  | cons i is ih => simp [ih]

@[simp] theorem portAfter_nil (s : State) : portAfter s [] = s.port := rfl
/-- The last of several input levels does not depend on the levels before them. -/
theorem portAfter_cons (s : State) (i : PortIn) (is : List PortIn) :
    portAfter s (i :: is) = is.getLast?.getD i := by
  simp [portAfter, List.getLast?_cons]

theorem portAfter_append (s t : State) (is js : List PortIn) (h : t.port = portAfter s is) :
    portAfter s (is ++ js) = portAfter t js := by
  unfold portAfter at *
  rw [List.getLast?_append, h]
  cases js.getLast? <;> simp

/-- Cut a run of edges after its first `n`. -/
theorem exists_split_at {α : Type} (l : List α) (n : Nat) (h : n ≤ l.length) : ∃ a b, l = a ++ b ∧ a.length = n :=
  ⟨l.take n, l.drop n, (List.take_append_drop n l).symm, by simp [h]⟩

@[simp] theorem noReset_nil : noReset [] := by simp [noReset]
@[simp] theorem noReset_cons {i : PortIn} {is : List PortIn} : noReset (i :: is) ↔ i.rst = false ∧ noReset is := by
  simp [noReset]
@[simp] theorem noReset_append {is js : List PortIn} : noReset (is ++ js) ↔ noReset is ∧ noReset js := by
  simp [noReset, or_imp, forall_and]

/-- Outside STREAM a low line stays low (R109). -/
theorem levelled_low {P : Params} {t : State} (h : t.phase ≠ .stream) (hd : t.dout = false) : t.levelled P = t := by
  unfold State.levelled
  rw [lineLevel_eq_false h, ← hd]

/-- An edge without a reset, at the given input levels. -/
theorem clockWith_run {P : Params} {s : State} {i : PortIn} (h : i.rst = false) :
    clockWith P s i = (phaseEdge P { s.quiet with port := i }).levelled P :=
  clockEdge_run (s := { s with port := i }) h

/-! ## Countdowns -/

/-- EXEC before its last edge (R71): only `wait` moves. -/
theorem exec_run {P : Params} (ins : List PortIn) (s : State) (hp : s.phase = .exec) (hd : s.dout = false)
    (h : noReset ins) (hn : ins.length < s.wait) :
    cycles P s ins = { s with
      wait := s.wait - ins.length, port := portAfter s ins, respValid := s.respValid && ins.isEmpty } := by
  induction ins generalizing s with
  | nil => simp
  | cons i is ih =>
    simp only [noReset_cons] at h
    simp only [List.length_cons] at hn
    have he : clockWith P s i = { s with wait := s.wait - 1, port := i, respValid := false } := by
      rw [clockWith_run h.1]
      simp [phaseEdge, execEdge, State.quiet, State.levelled, lineLevel, hp, hd, show ¬ s.wait ≤ 1 by omega]
    rw [cycles_cons, he, ih { s with wait := s.wait - 1, port := i, respValid := false } hp hd h.2 (by simp only; omega), portAfter_cons]
    simp [portAfter]; omega

/-- GAP before its last edge (R103): only GAPT moves. -/
theorem gap_run {P : Params} (ins : List PortIn) (s : State) (hp : s.phase = .gap) (hd : s.dout = false)
    (h : noReset ins) (hn : s.gapt + ins.length < P.gapCycles) :
    cycles P s ins = { s with
      gapt := s.gapt + ins.length, port := portAfter s ins, respValid := s.respValid && ins.isEmpty } := by
  induction ins generalizing s with
  | nil => simp
  | cons i is ih =>
    simp only [noReset_cons] at h
    simp only [List.length_cons] at hn
    have he : clockWith P s i = { s with gapt := s.gapt + 1, port := i, respValid := false } := by
      rw [clockWith_run h.1]
      simp [phaseEdge, gapEdge, State.quiet, State.levelled, lineLevel, hp, hd, show s.gapt + 1 < P.gapCycles by omega]
    rw [cycles_cons, he, ih { s with gapt := s.gapt + 1, port := i, respValid := false } hp hd h.2 (by simp only; omega), portAfter_cons]
    simp [portAfter]; omega

/-- The last edge of GAP (R103): the Latch, the response, IDLE. -/
theorem gap_end {P : Params} {s : State} {i : PortIn} (hp : s.phase = .gap) (hd : s.dout = false) (h : i.rst = false)
    (hn : s.gapt + 1 = P.gapCycles) :
    clockWith P s i = finishFrame { s with gapt := P.gapCycles, port := i, respValid := false } := by
  rw [clockWith_run h]
  simp only [phaseEdge, gapEdge, State.quiet, hp, hn, Nat.lt_irrefl, if_false]
  refine levelled_low (by simp [finishFrame]) ?_
  unfold finishFrame
  simp only
  split <;> exact hd

/-- GAP from any of its cycles to its end. -/
theorem gap_whole {P : Params} (ins : List PortIn) (s : State) (hp : s.phase = .gap) (hd : s.dout = false)
    (h : noReset ins) (hl : s.gapt < P.gapCycles) (hn : s.gapt + ins.length = P.gapCycles) :
    cycles P s ins = finishFrame { s with gapt := P.gapCycles, port := portAfter s ins, respValid := false } := by
  rcases List.eq_nil_or_concat' ins with rfl | ⟨is, i, rfl⟩
  · rw [List.length_nil] at hn; omega
  · simp only [noReset_append, noReset_cons] at h
    rw [List.length_append] at hn
    simp only [List.length_cons, List.length_nil] at hn
    rw [cycles_append, gap_run is s hp hd h.1 (by omega)]
    simp only [cycles_cons, cycles_nil]
    rw [gap_end (s := { s with
      gapt := s.gapt + is.length, port := portAfter s is, respValid := s.respValid && is.isEmpty }) hp hd h.2.1
      (by simp only; omega)]
    rw [portAfter_append s { s with port := portAfter s is } is [i] rfl, portAfter_cons]
    rfl

/-- The line is low from any cycle of GAP to the edge that ends it, that one included. -/
theorem gap_trace {P : Params} (ins : List PortIn) (s : State) (hp : s.phase = .gap) (hd : s.dout = false)
    (h : noReset ins) (hn : s.gapt + ins.length ≤ P.gapCycles) :
    lineTrace P s ins = List.replicate ins.length false := by
  induction ins generalizing s with
  | nil => rfl
  | cons i is ih =>
    simp only [noReset_cons] at h
    simp only [List.length_cons] at hn
    rw [lineTrace_cons, List.length_cons, List.replicate_succ]
    by_cases hlt : s.gapt + 1 < P.gapCycles
    · have he : clockWith P s i = { s with gapt := s.gapt + 1, port := i, respValid := false } := by
        rw [clockWith_run h.1]
        simp [phaseEdge, gapEdge, State.quiet, State.levelled, lineLevel, hp, hd, hlt]
      rw [he, ih { s with gapt := s.gapt + 1, port := i, respValid := false } hp hd h.2 (by simp only; omega)]
      simp [hd]
    · have his : is = [] := by
        rw [← List.length_eq_zero_iff]; omega
      subst his
      rw [gap_end hp hd h.1 (by simp at hn; omega), lineTrace_nil]
      unfold finishFrame
      simp only
      split <;> simp [hd]

/-- INIT with a channel before its last edge (R136): only GAPT moves. -/
theorem init_run {P : Params} (hc : P.channelOk = true) (ins : List PortIn) (s : State) (hp : s.phase = .init)
    (hd : s.dout = false) (h : noReset ins) (hn : s.gapt + ins.length < P.gapCycles) :
    cycles P s ins = { s with
      gapt := s.gapt + ins.length, port := portAfter s ins, respValid := s.respValid && ins.isEmpty } := by
  induction ins generalizing s with
  | nil => simp
  | cons i is ih =>
    simp only [noReset_cons] at h
    simp only [List.length_cons] at hn
    have he : clockWith P s i = { s with gapt := s.gapt + 1, port := i, respValid := false } := by
      rw [clockWith_run h.1]
      simp [phaseEdge, initEdge, State.quiet, State.levelled, lineLevel, hp, hd, hc,
        show s.gapt + 1 < P.gapCycles by omega]
    rw [cycles_cons, he, ih { s with gapt := s.gapt + 1, port := i, respValid := false } hp hd h.2 (by simp only; omega), portAfter_cons]
    simp [portAfter]; omega

/-- FAULT lasts (R124): only the ports move. -/
theorem fault_run {P : Params} (ins : List PortIn) (s : State) (hp : s.phase = .fault) (hd : s.dout = false)
    (h : noReset ins) :
    cycles P s ins = { s with port := portAfter s ins, respValid := s.respValid && ins.isEmpty } := by
  induction ins generalizing s with
  | nil => simp
  | cons i is ih =>
    simp only [noReset_cons] at h
    have he : clockWith P s i = { s with port := i, respValid := false } := by
      rw [clockWith_run h.1]
      simp [phaseEdge, State.quiet, State.levelled, lineLevel, hp, hd]
    rw [cycles_cons, he, ih { s with port := i, respValid := false } hp hd h.2, portAfter_cons]
    simp [portAfter]

/-! ## What is left of a frame -/

/-- The waveform of a list of bits. -/
def waves (P : Params) (bits : List Bool) : List Bool := bits.flatMap (waveform P)

@[simp] theorem waves_nil (P : Params) : waves P [] = [] := rfl
@[simp] theorem waves_cons (P : Params) (b : Bool) (bs : List Bool) : waves P (b :: bs) = waveform P b ++ waves P bs := rfl
theorem waves_append (P : Params) (bs cs : List Bool) : waves P (bs ++ cs) = waves P bs ++ waves P cs := by
  simp [waves]

@[simp] theorem waveform_length (P : Params) (b : Bool) : (waveform P b).length = P.tBit := by
  have := P.high_lt_tBit b
  simp [waveform]; omega

/-- The level in cycle `k` of a bit period (R108). -/
theorem waveform_drop (P : Params) (b : Bool) (k : Nat) (h : k < P.tBit) :
    (waveform P b).drop k = decide (k < P.high b) :: (waveform P b).drop (k + 1) := by
  rw [List.drop_eq_getElem_cons (by simpa using h)]
  congr 1
  simp only [waveform, List.getElem_append, List.length_replicate, List.getElem_replicate]
  split <;> simp_all

theorem waves_length (P : Params) (bs : List Bool) : (waves P bs).length = bs.length * P.tBit := by
  induction bs with
  | nil => simp
  | cons b bs ih => simp [ih, Nat.add_mul]; omega

@[simp] theorem bitsOf_length (v : Byte) : (bitsOf v).length = 8 := by simp [bitsOf]

/-- The bits of a byte from number `n` on, `n < 8` (R107). -/
theorem bitsOf_drop (v : Byte) (n : Nat) (h : n < 8) : (bitsOf v).drop n = (v <<< n).msb :: (bitsOf v).drop (n + 1) := by
  rw [List.drop_eq_getElem_cons (by simpa [bitsOf] using h)]
  simp [bitsOf, BitVec.msb_shiftLeft]

/-- The bytes of the frame that are not in SHIFT yet: those in FIFO, then those from CUR on (R105, R106). -/
def State.bytesLeft (s : State) : List Byte :=
  s.fifo ++ match s.cur with
    | some x => s.buf.frame.drop x.addr
    | none => []

/-- The line from this cycle to the end of the frame, while PHASE = STREAM. -/
def State.lineLeft (P : Params) (s : State) : List Bool :=
  if s.nbit = 0 then
    List.replicate (if s.fifo = [] then s.wait + 2 else 1) false ++ waves P (s.bytesLeft.flatMap bitsOf)
  else
    (waves P ((bitsOf s.txByte).drop (8 - s.nbit))).drop s.bitT ++ waves P (s.bytesLeft.flatMap bitsOf)

theorem pending_eq {s : State} (h : s.phase = .stream) :
    s.pending = (if s.nbit = 0 then [] else [s.txByte]) ++ s.bytesLeft := by
  unfold State.pending State.bytesLeft
  rw [if_pos h]
  cases s.cur <;> simp

/-- The emitter moves a byte from BUF into FIFO and loses none (R105, R106). -/
theorem bytesLeft_send {s : State} {x : Cursor} (hc : s.cur = some x) (hx : x.k < nPix) :
    (s.send x).bytesLeft = s.bytesLeft := by
  have ha := Cursor.addr_advance hx
  unfold State.bytesLeft
  simp only [State.send, hc, Memory.frame_drop s.buf x.addr (Cursor.addr_lt hx), List.append_assoc,
    List.singleton_append]
  cases h : x.advance with
  | none => 
    rw [h] at ha
    simp only at ha
    simp [ha, List.drop_eq_nil_of_le]
  | some y => 
    rw [h] at ha
    simp only at ha
    simp [ha]

theorem lineLeft_send {P : Params} {s : State} {x : Cursor} (hn : s.nbit ≠ 0) (hc : s.cur = some x) (hx : x.k < nPix) :
    (s.send x).lineLeft P = s.lineLeft P := by
  unfold State.lineLeft
  rw [bytesLeft_send hc hx]
  simp [hn]

/-- Inside a byte the line is at the level of the bit being sent, and goes on with the rest of that bit's period, the
rest of the byte, and the bytes left. -/
theorem lineLeft_insideByte {P : Params} {s : State} (hp : s.phase = .stream) (h : s.insideByte P) :
    s.lineLeft P = lineLevel P s :: ((waveform P s.shift.msb).drop (s.bitT + 1) ++
      waves P ((bitsOf s.txByte).drop (8 - s.nbit + 1)) ++ waves P (s.bytesLeft.flatMap bitsOf)) := by
  obtain ⟨-, h1, h8, ht, hsh, -⟩ := h
  unfold State.lineLeft
  rw [if_neg (by omega), bitsOf_drop _ _ (by omega), ← hsh, waves_cons,
    List.drop_append_of_le_length (by simp; omega), waveform_drop _ _ _ ht]
  simp [lineLevel, hp, show 0 < s.nbit by omega]

/-- What an edge of STREAM inside a frame leaves: the rest of the line, and the same bytes in all (R106, R110). -/
structure State.Streamed (P : Params) (s t : State) : Prop where
  phase : t.phase = .stream
  line : s.lineLeft P = lineLevel P s :: t.lineLeft P
  bytes : t.events ++ t.pending.map Event.byte = s.events ++ s.pending.map Event.byte
  /-- Nothing moves but the streamer and the output events. -/
  rest : t = { s with
    events := t.events, fifo := t.fifo, cur := t.cur, shift := t.shift, nbit := t.nbit, bitT := t.bitT,
    txByte := t.txByte, wait := t.wait }

theorem State.Streamed.send {P : Params} {s t : State} {x : Cursor} (h : s.Streamed P t) (hc : t.cur = some x)
    (hx : x.k < nPix) (hn : t.nbit ≠ 0) : s.Streamed P (t.send x) := by
  refine ⟨h.phase, by rw [lineLeft_send hn hc hx]; exact h.line, ?_, ?_⟩
  · rw [← h.bytes, pending_eq h.phase, pending_eq (s := t.send x) h.phase, bytesLeft_send hc hx]; rfl
  · exact congrArg (fun u : State => { u with fifo := t.fifo ++ [t.buf.read x.addr], cur := x.advance }) h.rest

/-- The serializer's edge inside a byte, but for the end of the frame. -/
theorem serializerEdge_streamed {P : Params} {s : State} (hp : s.phase = .stream) (h : s.insideByte P)
    (hend : ¬ (s.fifo = [] ∧ s.cur = none ∧ s.nbit = 1 ∧ s.bitT + 1 = P.tBit)) :
    s.Streamed P (serializerEdge P s) ∧ (serializerEdge P s).nbit ≠ 0 ∧ (serializerEdge P s).cur = s.cur := by
  have hl := lineLeft_insideByte hp h
  have hT := P.tBit_ge
  have h1 := h.2.1
  have h8 : s.nbit ≤ 8 := h.2.2.1
  rcases serializerEdge_insideByte h with ⟨e, hlt⟩ | ⟨e, hn2, heq⟩ | ⟨v, rest, hf, hn, heq, e⟩ | ⟨hf, hc, hn, heq, -⟩
  · rw [e]
    refine ⟨⟨hp, ?_, ?_, rfl⟩, by simp; omega, rfl⟩
    · rw [hl]
      unfold State.lineLeft
      rw [if_neg (by simp; omega)]
      simp only
      rw [bitsOf_drop s.txByte (8 - s.nbit) (by omega), waves_cons, List.drop_append_of_le_length (by simp; omega),
        ← h.2.2.2.2.1]
      rfl
    · rw [pending_eq hp, pending_eq (s := { s with bitT := s.bitT + 1 }) hp]; rfl
  · rw [e]
    refine ⟨⟨hp, ?_, ?_, rfl⟩, by simp; omega, rfl⟩
    · rw [hl]
      unfold State.lineLeft
      rw [if_neg (by simp; omega)]
      simp only [heq, List.drop_zero, show 8 - (s.nbit - 1) = 8 - s.nbit + 1 by omega]
      rw [List.drop_eq_nil_of_le (by simp)]
      rfl
    · rw [pending_eq hp, pending_eq (s := { s with shift := s.shift <<< 1, nbit := s.nbit - 1, bitT := 0 }) hp]
      simp [State.bytesLeft, show s.nbit ≠ 0 by omega, show s.nbit - 1 ≠ 0 by omega]
  · rw [e]
    refine ⟨⟨hp, ?_, ?_, rfl⟩, by simp, rfl⟩
    · rw [hl]
      unfold State.lineLeft
      rw [if_neg (by simp)]
      simp only [heq, hn, List.drop_zero, State.bytesLeft, hf]
      rw [List.drop_eq_nil_of_le (by simp), List.drop_eq_nil_of_le (by simp [bitsOf])]
      simp [waves_append]
    · rw [pending_eq hp, pending_eq (s := { s with
        events := s.events ++ [.byte s.txByte], fifo := rest, shift := v, txByte := v, nbit := 8, bitT := 0 }) hp]
      simp [State.bytesLeft, hf, hn]
  · exact absurd ⟨hf, hc, hn, heq⟩ hend

/-- An edge of STREAM before the end of the frame (R105 to R110). -/
theorem streamEdge_streamed {P : Params} {s : State} (hp : s.phase = .stream) (hd : s.beforeFirstBit ∨ s.insideByte P)
    (hcur : ∀ x, s.cur = some x → x.k < nPix) (hl : s.lineLeft P ≠ [lineLevel P s]) :
    s.Streamed P (streamEdge P s) := by
  rcases hd with ⟨hn, hs, ht, hx, hq⟩ | hin
  · have hdepth : 0 < P.fifoDepth := by simp [Params.fifoDepth]
    have hlv : lineLevel P s = false := by simp [lineLevel, hn]
    rcases hq with ⟨hc, hf⟩ | ⟨hw, hc, hf⟩
    · by_cases hw : 0 < s.wait
      · rw [show streamEdge P s = { s with wait := s.wait - 1 } from by simp [streamEdge, hw]]
        refine ⟨hp, ?_, ?_, rfl⟩
        · simp only [State.lineLeft, hn, hf, if_true, hlv, State.bytesLeft]
          rw [show s.wait + 2 = (s.wait - 1 + 2) + 1 by omega, List.replicate_succ]
          rfl
        · rw [pending_eq hp, pending_eq (s := { s with wait := s.wait - 1 }) hp]; rfl
      · have he : streamEdge P s = s.send Cursor.start := by
          simp [streamEdge, serializerEdge, hw, hc, hf, hn, hdepth]
        have hb := bytesLeft_send hc (x := Cursor.start) (by decide)
        rw [he]
        refine ⟨hp, ?_, ?_, rfl⟩
        · simp only [State.lineLeft, hb, hn, State.send_nbit, if_true, hlv, hf, State.send_fifo]
          simp [show s.wait = 0 by omega, List.replicate_succ]
        · rw [pending_eq hp, pending_eq (s := s.send Cursor.start) hp, hb]; rfl
    · have hc' : s.cur = some ⟨0, .r⟩ := hc
      have key : s.Streamed P (s.load (s.buf.read Cursor.start.addr) []) := by
        refine ⟨hp, ?_, ?_, rfl⟩
        · simp [State.lineLeft, hn, hf, hlv, State.bytesLeft, State.load, waves_append]
        · rw [pending_eq hp, pending_eq (s := s.load (s.buf.read Cursor.start.addr) []) hp]
          simp [State.bytesLeft, State.load, hn, hf]
      by_cases hroom : 1 < P.fifoDepth
      · rw [show streamEdge P s = (s.load (s.buf.read Cursor.start.addr) []).send ⟨0, .r⟩ from by
          simp [streamEdge, serializerEdge, hw, hc', hf, hn, hroom]]
        exact key.send hc' (by decide) (by simp)
      · rw [show streamEdge P s = s.load (s.buf.read Cursor.start.addr) [] from by
          simp [streamEdge, serializerEdge, hw, hc', hf, hn, hroom]]
        exact key
  · have hend : ¬ (s.fifo = [] ∧ s.cur = none ∧ s.nbit = 1 ∧ s.bitT + 1 = P.tBit) := by
      rintro ⟨hf, hc, hn, ht⟩
      apply hl
      rw [lineLeft_insideByte hp hin, ht, hn, List.drop_eq_nil_of_le (by simp), List.drop_eq_nil_of_le (by simp [bitsOf])]
      simp [State.bytesLeft, hf, hc]
    obtain ⟨key, hne, hce⟩ := serializerEdge_streamed hp hin hend
    cases hc : s.cur with
    | none => rw [streamEdge_done hin.1 hc]; exact key
    | some x =>
      by_cases hroom : s.fifo.length < P.fifoDepth
      · rw [streamEdge_send hin.1 hc hroom]
        exact key.send (hce.trans hc) (hcur x hc) hne
      · rw [streamEdge_full hin.1 hc hroom]; exact key

/-- The last edge of STREAM: the 600th bit period has ended (R103, R111). -/
theorem streamEdge_end {P : Params} {s : State} (hp : s.phase = .stream) (hd : s.beforeFirstBit ∨ s.insideByte P)
    (hcur : ∀ x, s.cur = some x → x.k < nPix) (hl : s.lineLeft P = [lineLevel P s]) :
    s.pending = [s.txByte] ∧ s.wait = 0 ∧ streamEdge P s = { s with
      events := s.events ++ [.byte s.txByte], phase := .gap, gapt := 0, cur := some Cursor.start, fifo := [],
      shift := 0x00#8, nbit := 0, bitT := 0, txByte := 0x00#8 } := by
  rcases hd with ⟨hn, hs, ht, hx, hq⟩ | hin
  · have hlen := congrArg List.length hl
    have hT := P.tBit_ge
    rcases hq with ⟨hc, hf⟩ | ⟨hw, hc, hf⟩
    · simp [State.lineLeft, hn, hf] at hlen; omega
    · simp [State.lineLeft, hn, hf, State.bytesLeft, waves_length] at hlen
      omega
  · have hlen := congrArg List.length hl
    rw [lineLeft_insideByte hp hin] at hlen
    have hT := P.tBit_ge
    have h1 := hin.2.1
    have h8 : s.nbit ≤ 8 := hin.2.2.1
    have hbt := hin.2.2.2.1
    simp only [List.length_cons, List.length_append, waves_length, List.length_drop, waveform_length,
      List.length_nil, bitsOf_length] at hlen
    have hz : P.tBit - (s.bitT + 1) = 0 ∧ (8 - (8 - s.nbit + 1)) * P.tBit = 0 ∧
        (s.bytesLeft.flatMap bitsOf).length * P.tBit = 0 := by omega
    obtain ⟨hz1, hz2, hz3⟩ := hz
    have hn : s.nbit = 1 := by
      rcases Nat.mul_eq_zero.mp hz2 with h | h <;> omega
    have hbl : s.bytesLeft = [] := by
      rcases Nat.mul_eq_zero.mp hz3 with h | h
      · cases hb : s.bytesLeft with
        | nil => rfl
        | cons v vs => simp [hb] at h
      · omega
    have hf : s.fifo = [] := by
      unfold State.bytesLeft at hbl
      exact (List.append_eq_nil_iff.mp hbl).1
    have hc : s.cur = none := by
      cases hc : s.cur with
      | none => rfl
      | some x =>
        have ha := Cursor.addr_lt (hcur x hc)
        have := congrArg List.length hbl
        simp [State.bytesLeft, hf, hc] at this
        omega
    refine ⟨by rw [pending_eq hp, hbl]; simp [hn], hin.1, ?_⟩
    have hsh : s.shift <<< 1 = 0x00#8 := by
      rw [hin.2.2.2.2.1, hn]; exact shift_out s.txByte
    rw [streamEdge_done hin.1 hc]
    simp [hsh, serializerEdge, hn, show ¬ s.bitT + 1 < P.tBit by omega, State.endBit, State.endByte, hf, hc, State.endFrame]

/-- The line left begins with the level now. -/
theorem lineLeft_head {P : Params} {s : State} (hI : s.Inv P) (hp : s.phase = .stream) :
    s.lineLeft P = lineLevel P s :: (s.lineLeft P).tail := by
  have hph := hI.phase
  simp only [State.phaseInv, hp] at hph
  by_cases h : s.lineLeft P = [lineLevel P s]
  · rw [h]; rfl
  · rw [(streamEdge_streamed hp hph.2.2.2 hph.2.2.1 h).line]; rfl

/-- The state after the last edge of STREAM. -/
def State.framed (s : State) (i : PortIn) : State :=
  { s with
    phase := .gap, events := s.events ++ s.pending.map Event.byte, gapt := 0, cur := some Cursor.start, fifo := [],
    shift := 0x00#8, nbit := 0, bitT := 0, txByte := 0x00#8, wait := 0, dout := false, respValid := false, port := i }

/-- STREAM from any of its cycles to the end of the frame: as many edges as the line has levels left (R105 to R113). -/
theorem stream_run {P : Params} (ins : List PortIn) (s : State) (hI : s.Inv P) (hp : s.phase = .stream)
    (h : noReset ins) :
    (ins.length < (s.lineLeft P).length → (cycles P s ins).phase = .stream) ∧
    (ins.length = (s.lineLeft P).length → cycles P s ins = s.framed (portAfter s ins) ∧
      lineTrace P s ins = (s.lineLeft P).tail ++ [false]) := by
  induction ins generalizing s with
  | nil => 
    refine ⟨fun _ => hp, fun hl => ?_⟩
    rw [lineLeft_head hI hp] at hl
    simp at hl
  | cons i is ih =>
    simp only [noReset_cons] at h
    have hph := hI.phase
    simp only [State.phaseInv, hp] at hph
    obtain ⟨hg, hj, hcur, hd⟩ := hph
    have hI1 : ({ s with port := i } : State).Inv P := ⟨hI.buf, hI.fifo, hI.resp, hI.dout, hI.phase⟩
    let s1 : State := { s.quiet with port := i }
    have he : clockWith P s i = (streamEdge P s1).levelled P := by
      rw [clockWith_run h.1]; simp [phaseEdge, s1, State.quiet, hp]
    have hI2 : (clockWith P s i).Inv P := he ▸ streamEdge_inv hI1 hp
    have hll : s1.lineLeft P = s.lineLeft P := rfl
    have hlv : lineLevel P s1 = lineLevel P s := rfl
    rw [cycles_cons, lineTrace_cons, portAfter_cons]
    by_cases hl : s.lineLeft P = [lineLevel P s]
    · obtain ⟨hpe, hw, hend⟩ := streamEdge_end (s := s1) hp hd hcur hl
      rw [hl]
      refine ⟨fun hh => by simp at hh, fun hh => ?_⟩
      have his : is = [] := by simpa using hh
      subst his
      have he2 : clockWith P s i = s.framed i := by
        have hpe' : s.pending = [s.txByte] := hpe
        have hw' : s.wait = 0 := hw
        rw [he, hend]
        unfold State.levelled
        rw [lineLevel_eq_false (by simp)]
        simp [State.framed, hpe', hw', s1, State.quiet]
      refine ⟨by simpa using he2, ?_⟩
      rw [he2]; rfl
    · have hst := streamEdge_streamed (s := s1) hp hd hcur hl
      have hp2 : (clockWith P s i).phase = .stream := by rw [he]; exact hst.phase
      have hl2 : s.lineLeft P = lineLevel P s :: (clockWith P s i).lineLeft P := by
        rw [he]; exact hst.line
      obtain ⟨ih1, ih2⟩ := ih (clockWith P s i) hI2 hp2 h.2
      rw [hl2]
      refine ⟨fun hh => ih1 (by simpa using hh), fun hh => ?_⟩
      obtain ⟨e1, e2⟩ := ih2 (by simpa using hh)
      refine ⟨?_, ?_⟩
      · rw [e1]
        have hport : (clockWith P s i).port = i := by rw [he]; exact congrArg State.port hst.rest
        have hbytes : (clockWith P s i).events ++ (clockWith P s i).pending.map Event.byte =
            s.events ++ s.pending.map Event.byte := by rw [he]; exact hst.bytes
        unfold State.framed portAfter
        rw [hbytes, hport, he]
        exact congrArg (fun u : State => { u with
          phase := .gap, events := s.events ++ s.pending.map Event.byte, gapt := 0, cur := some Cursor.start,
          fifo := [], shift := 0x00#8, nbit := 0, bitT := 0, txByte := 0x00#8, wait := 0, dout := false,
          respValid := false, port := is.getLast?.getD i }) hst.rest
      · rw [e2, hI2.dout, List.tail_cons]
        conv_rhs => rw [lineLeft_head hI2 hp2]
        rfl

/-- At the entry to STREAM: start-up cycles, then the whole frame (R99, R110, S4). -/
theorem lineLeft_start {P : Params} {s : State} (hn : s.nbit = 0) (hf : s.fifo = []) (hc : s.cur = some Cursor.start) :
    s.lineLeft P = List.replicate (s.wait + 2) false ++ frameWaveform P s.buf := by
  simp [State.lineLeft, hn, hf, State.bytesLeft, hc, Cursor.start, Cursor.addr, chanAddr, Chan.index, frameWaveform, waves]

theorem pending_start {s : State} (hp : s.phase = .stream) (hn : s.nbit = 0) (hf : s.fifo = [])
    (hc : s.cur = some Cursor.start) : s.pending = s.buf.frame := by
  simp [pending_eq hp, hn, hf, State.bytesLeft, hc, Cursor.start, Cursor.addr, chanAddr, Chan.index]

/-- A frame takes 600 bit periods (R113). -/
theorem frameWaveform_length (P : Params) (m : Memory) : (frameWaveform P m).length = 600 * P.tBit := by
  have h : ∀ l : List Byte, (l.flatMap bitsOf).length = l.length * 8 := fun l => by
    induction l with
    | nil => rfl
    | cons v vs ih => simp [ih, Nat.add_mul]; omega
  show (waves P _).length = _
  rw [waves_length, h, Memory.frame_length]; rfl

/-- From any cycle of STREAM to the end of the gap: the line left, then low for the gap (R102, R103, R111). -/
theorem frame_run {P : Params} {s : State} (hI : s.Inv P) (hp : s.phase = .stream) (ins : List PortIn) (h : noReset ins) :
    (ins.length < (s.lineLeft P).length + P.gapCycles → (cycles P s ins).phase ≠ .idle) ∧
    (ins.length = (s.lineLeft P).length + P.gapCycles →
      cycles P s ins = finishFrame { s.framed (portAfter s ins) with gapt := P.gapCycles } ∧
      lineTrace P s ins = (s.lineLeft P).tail ++ [false] ++ List.replicate P.gapCycles false) := by
  have hg := P.gapCycles_pos
  by_cases hlt : ins.length < (s.lineLeft P).length
  · exact ⟨fun _ => by rw [(stream_run ins s hI hp h).1 hlt]; decide, fun hh => by omega⟩
  · obtain ⟨a, b, rfl, ha⟩ := exists_split_at ins (s.lineLeft P).length (by omega)
    simp only [noReset_append] at h
    obtain ⟨e1, e2⟩ := (stream_run a s hI hp h.1).2 ha
    rw [cycles_append, lineTrace_append, e1, e2, List.length_append, ha]
    refine ⟨fun hh => ?_, fun hh => ?_⟩
    · rw [gap_run b _ rfl rfl h.2 (by simp [State.framed]; omega)]; simp [State.framed]
    · rw [gap_whole b _ rfl rfl h.2 (by simp [State.framed]; omega) (by simp [State.framed]; omega),
        gap_trace b _ rfl rfl h.2 (by simp [State.framed]; omega),
        portAfter_append s (s.framed (portAfter s a)) a b rfl]
      exact ⟨rfl, by congr 2; omega⟩

end Sys2Proof.Machine
end

