-- ==== Sys2Proof/Laws/PerInstr.lean ====
section
/-!
SUPPORT. One law per command, about its word: under the mask of its row of spec/opcode_table.json the encoded word is the
row's match value.
-/

namespace Sys2Proof.Laws.TableWord

/-- The `mask` of a command's row in spec/opcode_table.json. -/
def mask : Instr → Word
  | .clear => 0xFFFFFFFF#32
  | .writePixel _ _ _ _ => 0xE0000000#32
  | .draw _ => 0xFFFFFFF0#32
  | .emit => 0xFFFFFFFF#32
  | .render _ => 0xFFFFFFF0#32
  | .map _ _ => 0xFFFFFF00#32

/-- The `match` value of a command's row in spec/opcode_table.json. -/
def value : Instr → Word
  | .clear => 0x20000000#32
  | .writePixel _ _ _ _ => 0x40000000#32
  | .draw _ => 0x60000000#32
  | .emit => 0x80000000#32
  | .render _ => 0xA0000000#32
  | .map _ _ => 0xC0000000#32

/-- The command's word is a word of its row. -/
def Statement (i : Instr) : Prop := encode i &&& mask i = value i

theorem clear : Statement .clear := rfl

theorem writePixel (p : Nat) (g r b : Byte) : Statement (.writePixel p g r b) := by
  have hmask : (0xE0000000#32 : Word) = 0b111#3 ++ 0#5 ++ 0#8 ++ 0#8 ++ 0#8 := by decide
  show (0b010#3 ++ BitVec.ofNat 5 p ++ g ++ r ++ b : Word) &&& 0xE0000000#32 = 0x40000000#32
  rw [hmask, BitVec.and_append, BitVec.and_append, BitVec.and_append, BitVec.and_append]
  simp only [BitVec.and_zero]
  rfl

theorem draw (d : Nat) : Statement (.draw d) := by
  show (0b011#3 ++ 0#25 ++ BitVec.ofNat 4 d : Word) &&& 0xFFFFFFF0#32 = 0x60000000#32
  generalize BitVec.ofNat 4 d = x
  revert x; decide

theorem emit : Statement .emit := rfl

theorem render (d : Nat) : Statement (.render d) := by
  show (0b101#3 ++ 0#25 ++ BitVec.ofNat 4 d : Word) &&& 0xFFFFFFF0#32 = 0xA0000000#32
  generalize BitVec.ofNat 4 d = x
  revert x; decide

theorem map (i j : Nat) : Statement (.map i j) := by
  show (0b110#3 ++ 0#21 ++ BitVec.ofNat 4 i ++ BitVec.ofNat 4 j : Word) &&& 0xFFFFFF00#32 = 0xC0000000#32
  generalize BitVec.ofNat 4 i = x
  generalize BitVec.ofNat 4 j = y
  revert x y; decide

end Sys2Proof.Laws.TableWord
end

