-- ==== Sys2Proof/Laws/Run.lean ====
section
/-!
SUPPORT. What one step, a run of steps and one event of the closed system can do: the lemmas that statements about runs and
about the host cite instead of unfolding `step`.
-/

namespace Sys2Proof.Machine

/-! ## A transaction and the input ports -/

/-- A transaction neither reads nor writes the input ports. -/
theorem transact_port (P : Params) (w : Word) (s : State) (p : PortIn) :
    transact P w { s with port := p } = { transact P w s with port := p } := by
  unfold transact
  split
  · rfl
  · next i _ =>
    cases i with
    | clear => rfl
    | writePixel p g r b => simp only [perform, doWritePixel]; split <;> rfl
    | draw d => simp only [perform, doDraw]; split <;> rfl
    | emit => rfl
    | render d => simp only [perform, doRender]; split <;> rfl
    | map i j => simp only [perform, doMap]; split <;> rfl

/-- A transaction leaves the control state and the command in progress as they are, and gives one response. -/
theorem transact_control (P : Params) (w : Word) (s : State) :
    (transact P w s).phase = s.phase ∧ (transact P w s).job = s.job ∧ (transact P w s).dout = s.dout ∧
      (transact P w s).port = s.port ∧ ∃ r, (transact P w s).responses = s.responses ++ [r] := by
  unfold transact
  split
  · exact ⟨rfl, rfl, rfl, rfl, _, rfl⟩
  · next i _ =>
    cases i with
    | clear => exact ⟨rfl, rfl, rfl, rfl, _, rfl⟩
    | writePixel p g r b => simp only [perform, doWritePixel]; split <;> exact ⟨rfl, rfl, rfl, rfl, _, rfl⟩
    | draw d => simp only [perform, doDraw]; split <;> exact ⟨rfl, rfl, rfl, rfl, _, rfl⟩
    | emit => exact ⟨rfl, rfl, rfl, rfl, _, rfl⟩
    | render d => simp only [perform, doRender]; split <;> exact ⟨rfl, rfl, rfl, rfl, _, rfl⟩
    | map i j => simp only [perform, doMap]; split <;> exact ⟨rfl, rfl, rfl, rfl, _, rfl⟩

/-! ## One step -/

theorem accepted?_eq_some {s : State} {w : Word} :
    accepted? s = some w ↔ s.cmdReady = true ∧ s.port.cmdValid = true ∧ s.port.cmd = w := by
  simp [accepted?, and_assoc]

theorem accepted?_eq_none {s : State} : accepted? s = none ↔ s.cmdReady = false ∨ s.port.cmdValid = false := by
  simp only [accepted?]
  cases s.cmdReady <;> cases s.port.cmdValid <;> simp

/-- A step that accepts a word is its transaction, at the block's own parameters (R73). -/
theorem step_accepted {s : State} {w : Word} (h : accepted? s = some w) : step s = .next (transact Config.params w s) := by
  have hr := (accepted?_eq_some.mp h).1
  unfold step transact
  rw [h]
  cases hd : decode w with
  | error e => simp only [hd]; exact accept_ready hr _
  | ok i => simp only [hd]; exact exec_ready hr i

/-- A step that accepts nothing is a clock edge, or stuck in FAULT. -/
theorem step_tick {s : State} (h : accepted? s = none) : step s = tick Config.params s := by
  unfold step
  rw [h]

theorem tick_fault {P : Params} {s : State} (h : s.phase = .fault) (hr : s.port.rst = false) :
    tick P s = .fault .fatalStartUp := by
  simp [tick, h, hr]

theorem tick_next {P : Params} {s : State} (h : ¬ (s.phase = .fault ∧ s.port.rst = false)) :
    tick P s = .next (clockEdge P s) := by
  simp [tick, h]

/-- All that a step can answer as a next state. -/
theorem step_next {s t : State} (h : step s = .next t) :
    (∃ w, accepted? s = some w ∧ t = transact Config.params w s) ∨
      (accepted? s = none ∧ t = clockEdge Config.params s) := by
  cases ha : accepted? s with
  | some w => rw [step_accepted ha] at h; cases h; exact .inl ⟨w, rfl, rfl⟩
  | none =>
    rw [step_tick ha] at h
    by_cases hf : s.phase = .fault ∧ s.port.rst = false
    · rw [tick_fault hf.1 hf.2] at h; cases h
    · rw [tick_next hf] at h; cases h; exact .inr ⟨rfl, rfl⟩

/-- In FAULT without a reset there is no step (R124). -/
theorem step_fault {s : State} (h : s.phase = .fault) (hr : s.port.rst = false) : step s = .fault .fatalStartUp := by
  have ha : accepted? s = none := accepted?_eq_none.mpr (.inl (by simp [State.cmdReady, h]))
  rw [step_tick ha, tick_fault h hr]

/-- A word presented to an IDLE block is accepted. -/
theorem accepted?_present {s : State} (h : s.phase = .idle) (w : Word) : accepted? (s.present w) = some w := by
  simp [accepted?, State.present, State.cmdReady, h]

/-- A word presented to a block in any other phase is not. -/
theorem accepted?_present_busy {s : State} (h : s.phase ≠ .idle) (w : Word) : accepted? (s.present w) = none := by
  simp [accepted?, State.present, State.cmdReady, h]

theorem accepted?_release (s : State) : accepted? s.release = none := by
  simp [accepted?, State.release]

/-! ## Runs of steps -/

theorem runSteps_cons_next {i : PortIn} {is : List PortIn} {s t : State} (h : step { s with port := i } = .next t) :
    runSteps (i :: is) s = runSteps is t := by
  simp [runSteps, h]

/-- At IDLE with no command in progress the run is over. -/
theorem observe_idle {s : State} (h : s.phase = .idle) (hj : s.job = none) :
    s.observe = some ⟨s.buf, s.responses, s.events⟩ := by
  simp [State.observe, State.over, h, hj]

theorem observe_eq_none {s : State} (h : s.phase ≠ .idle) : s.observe = none := by
  simp [State.observe, State.over, h]

/-! ## The host beside the block -/

theorem drive_issuing {h : RefHost} {i : Instr} (hp : h.polling = .issuing i) (s : State) :
    h.drive s = s.present (encode i) := by
  simp [RefHost.drive, hp]

theorem drive_boot_idle {h : RefHost} (hp : h.polling = .boot) {s : State} (hs : s.phase = .idle) :
    h.drive s = s.present (encode (.render 0)) := by
  simp [RefHost.drive, hp, State.cmdReady, State.release, hs]

theorem drive_boot_busy {h : RefHost} (hp : h.polling = .boot) {s : State} (hs : s.phase ≠ .idle) : h.drive s = s.release := by
  simp [RefHost.drive, hp, State.cmdReady, State.release, hs]

theorem drive_loop {h : RefHost} (hp : h.polling = .loop) (s : State) : h.drive s = s.release := by
  simp [RefHost.drive, hp]

/-- Under a released port the block's step is an edge, and the host is as before. -/
theorem clock_release {y : System} (hd : y.host.drive y.block = y.block.release) (hf : y.block.phase ≠ .fault) :
    y.clock = .next ⟨y.host, clockEdge Config.params y.block.release⟩ := by
  have hf' : ¬ (y.block.release.phase = .fault ∧ y.block.release.port.rst = false) := fun h => hf h.1
  simp [System.clock, hd, accepted?_release, step_tick, tick_next hf', withHost]

/-- A command the host presents to an IDLE block is its transaction, and the host has its response. -/
theorem clock_accept {y : System} {w : Word} (hd : y.host.drive y.block = y.block.present w) (hi : y.block.phase = .idle) :
    y.clock = .next ⟨y.host.answered, transact Config.params w (y.block.present w)⟩ := by
  have ha := accepted?_present hi w
  simp [System.clock, hd, ha, step_accepted ha, withHost]

theorem run_cons_next {P : Params} {y z : System} {e : HostEvent} {es : List HostEvent} (h : y.handle P e = .next z) :
    y.run P (e :: es) = z.run P es := by
  simp [System.run, h]

theorem run_append {P : Params} (es : List HostEvent) : ∀ {y z : System} {fs : List HostEvent},
    y.run P es = .next z → y.run P (es ++ fs) = z.run P fs := by
  induction es with
  | nil => intro y z fs h; simp only [System.run] at h; cases h; rfl
  | cons e es ih =>
    intro y z fs h
    simp only [System.run, List.cons_append] at h ⊢
    split at h
    · exact ih h
    · cases h
    · cases h

end Sys2Proof.Machine
end

