-- ==== Sys2Proof/Tests/Slice0.lean ====
section
/-!
SUPPORT. The model's own tests: ill-formed terms, words written out from the spec's encodings, the spec's test vectors
(95_test_vectors.md) one step at a time on small states, and for every statement with hypotheses a named witness that meets
them all. Expected values come from the spec: the vector is named at each test.
-/

namespace Sys2Proof.Tests

open Sys2Proof.Machine

/-! ## Ill-formed terms are refused (R63 to R65) -/

theorem test_wf_pixel_index : (Instr.writePixel 31 0 0 0).wf = true ∧ (Instr.writePixel 32 0 0 0).wf = false := by decide
theorem test_wf_draw_digit : (Instr.draw 15).wf = true ∧ (Instr.draw 16).wf = false := by decide
theorem test_wf_render_digit : (Instr.render 15).wf = true ∧ (Instr.render 16).wf = false := by decide
theorem test_wf_map_row : (Instr.map 15 0).wf = true ∧ (Instr.map 16 0).wf = false := by decide
theorem test_wf_map_column : (Instr.map 0 15).wf = true ∧ (Instr.map 0 16).wf = false := by decide

/-! ## Decoding: words written out field by field from R61 to R65 -/

/-- op 001, 29 zero bits (V-D5). -/
theorem test_decode_clear : decode 0b00100000000000000000000000000000#32 = .ok .clear := by decide
/-- op 010, p = 01100, g = 0x12, r = 0x34, b = 0x56 (V-B6). -/
theorem test_decode_write_pixel :
    decode 0b01001100000100100011010001010110#32 = .ok (.writePixel 12 0x12#8 0x34#8 0x56#8) := by decide
/-- op 011, 25 zero bits, d = 1001 (V-D13). -/
theorem test_decode_draw : decode 0b01100000000000000000000000001001#32 = .ok (.draw 9) := by decide
/-- op 100, 29 zero bits (V-D19). -/
theorem test_decode_emit : decode 0b10000000000000000000000000000000#32 = .ok .emit := by decide
/-- op 101, 25 zero bits, d = 1010: decodes, and is out of range at run time (V-D24). -/
theorem test_decode_render : decode 0b10100000000000000000000000001010#32 = .ok (.render 10) := by decide
/-- op 110, 21 zero bits, i = 0100, j = 0101: the row is the higher nibble (V-D28). -/
theorem test_decode_map : decode 0b11000000000000000000000001000101#32 = .ok (.map 4 5) := by decide
/-- Reserved opcodes (V-D2, V-D4). -/
theorem test_decode_reserved_opcode :
    decode 0x1FFFFFFF#32 = .error .reservedOpcode ∧ decode 0xFFFFFFFF#32 = .error .reservedOpcode := by decide
/-- Reserved bits at the edges of each reserved field (V-D6, V-D7, V-D16, V-D18, V-D20, V-D25, V-D31, V-D33). -/
theorem test_decode_reserved_bits :
    [0x20000001#32, 0x30000000#32, 0x60000010#32, 0x70000000#32, 0x80000001#32, 0xA0000100#32, 0xC0000100#32,
      0xDFFFFF00#32].map decode = List.replicate 8 (.error .reservedBits) := by decide
/-- The opcode table's words, through the host's entry point. -/
theorem test_decode_table_word : decodeTableWord 32 0xC0000023 = some (.map 2 3) ∧ decodeTableWord 32 0 = none := by decide

/-! ## A build of the block to test with -/

/-- The fixture table FX (95_test_vectors.md section 0). -/
def fx : Fin nGlyphs → Glyph := fun d i j =>
  ⟨BitVec.ofNat 8 (16 * i.val + j.val), BitVec.ofNat 8 (128 + d.val), BitVec.ofNat 8 (5 * i.val + j.val)⟩

/-- V-T1's build: F_CLK = 12 MHz, T_GAP = 100 us; the shortest bit, FIFO_DEPTH 2, L_CMD 2. -/
def build : Params where
  glyph := fx
  channelOk := true
  gapNum := 0
  gapDen := 0
  clkNum := 11
  clkDen := 0
  t0hExtra := 0
  t1hExtra := 0
  tBitExtra := 0
  fifoExtra := 1
  lCmdExtra := 1
  startup := fun _ => 1
  renderExec := fun _ => 0
  ledAfterCut := fun _ k => ⟨0x01#8, 0x02#8, BitVec.ofNat 8 k⟩
  tLast0 := 0
  indicator0 := true

/-- A block as INIT leaves it (V-F2). -/
def idleBlock (P : Params) : State := State.reset.afterInit P
/-- V-B2's buffer: BUF[5] = (0x01, 0x02, 0x03), BUF[24] = (0xAA, 0xBB, 0xCC). -/
def someBuf : Memory := (Memory.zero.setPixel 5 ⟨0x01, 0x02, 0x03⟩).setPixel 24 ⟨0xAA, 0xBB, 0xCC⟩
/-- An IDLE block with that buffer. -/
def litBlock : State := { idleBlock build with buf := someBuf }

/-! ## The commands -/

/-- V-B2: CLEAR. -/
theorem test_clear : (doClear litBlock).buf = [] ∧ (doClear litBlock).resp = 0 := by decide
/-- V-B6: WRITE_PIXEL 12. -/
theorem test_write_pixel :
    (doWritePixel 12 0x12 0x34 0x56 (idleBlock build)).buf = [(36, 0x12), (37, 0x34), (38, 0x56)] := by decide
/-- V-B7, V-B8: pixel 24 to dark leaves pixel 5; pixel 25 is refused with BUF unchanged. -/
theorem test_write_pixel_edge :
    (doWritePixel 24 0 0 0 litBlock).buf = [(15, 0x01), (16, 0x02), (17, 0x03)] ∧
      (doWritePixel 25 1 2 3 litBlock).buf = someBuf ∧ (doWritePixel 25 1 2 3 litBlock).resp = 0x00000001#32 := by decide
/-- V-R1, V-R4: DRAW 0 with FX, by channel name, at the serpentine places of four cells. -/
theorem test_draw :
    let m := (doDraw build 0 litBlock).buf
    m.pixel 0 = ⟨0x80, 0x44, 0x18⟩ ∧ m.pixel 5 = ⟨0x80, 0x30, 0x0F⟩ ∧ m.pixel 14 = ⟨0x80, 0x20, 0x0A⟩ ∧
      m.pixel 24 = ⟨0x80, 0x00, 0x00⟩ := by decide +kernel
/-- V-R3: DRAW 10. -/
theorem test_draw_out_of_range :
    (doDraw build 10 litBlock).buf = someBuf ∧ (doDraw build 10 litBlock).resp = 0x00000001#32 := by decide
/-- V-E2 at the other end: the last three bytes of V-B2's buffer, then Latch; 76 events. -/
theorem test_emit :
    (doEmit build litBlock).events.drop 72 = [.byte 0xAA, .byte 0xBB, .byte 0xCC, .latch] ∧
      (doEmit build litBlock).events.length = 76 ∧ (doEmit build litBlock).buf = someBuf := by decide +kernel
/-- V-R5: RENDER 7 with FX: the first and last pixel of the frame, Latch, BUF all zero, response 0. -/
theorem test_render :
    let t := doRender build 7 litBlock
    t.events.take 3 = [.byte 0x87, .byte 0x44, .byte 0x18] ∧
      t.events.drop 72 = [.byte 0x87, .byte 0x00, .byte 0x00, .latch] ∧ t.buf = [] ∧ t.resp = 0 := by decide +kernel
/-- V-R6: RENDER 10 clears nothing and sends nothing. -/
theorem test_render_out_of_range :
    (doRender build 10 litBlock).buf = someBuf ∧ (doRender build 10 litBlock).events = [] ∧
      (doRender build 10 litBlock).resp = 0x00000001#32 := by decide
/-- MAP 2, 3 answers 0x00000B00 (R91); MAP 0, 0 answers 0x00001800 (V-D26). -/
theorem test_map : (doMap 2 3 litBlock).resp = 0x00000B00#32 ∧ (doMap 0 0 litBlock).resp = 0x00001800#32 := by decide
/-- V-D28, V-D29: one coordinate out of range is enough. -/
theorem test_map_out_of_range :
    (doMap 4 5 litBlock).resp = 0x00000001#32 ∧ (doMap 5 4 litBlock).resp = 0x00000001#32 := by decide
/-- V-D17: ILLEGAL wins over OUT_OF_RANGE. -/
theorem test_illegal_wins : (transact build 0x6000001C#32 litBlock).resp = 0x00000002#32 := by decide

/-! ## The step runs the placed word (what the host asks of each row) -/

theorem test_step_map : step (State.reset.withFetchWord 32 0xC0000023) =
    exec (.map 2 3) (State.reset.withFetchWord 32 0xC0000023) := rfl
theorem test_step_emit : step (State.reset.withFetchWord 32 0x80000000) =
    exec .emit (State.reset.withFetchWord 32 0x80000000) := rfl
theorem test_step_draw_completes : ∃ t, step (State.reset.withFetchWord 32 0x60000000) = .next t := ⟨_, rfl⟩

/-! ## ROM, timing, wire and host -/

/-- R43 with FX: cell (2, 3) of digit 1 starts at 3*(25 + 13) = 114; R = 0x23, G = 0x81, B = 13; 749 is the last byte. -/
theorem test_rom : romRead build 114 = some 0x23 ∧ romRead build 115 = some 0x81 ∧ romRead build 116 = some 13 ∧
    romRead build 749 = some 24 ∧ romRead build 750 = none := by decide
/-- V-T1: 1200 cycles. -/
theorem test_gap_cycles : build.gapCycles = 1200 := by decide
/-- V-F1: without a channel the first edge enters FAULT. -/
theorem test_fault : (clockEdge { build with channelOk := false } State.reset).phase = .fault := by decide
/-- V-W1: the first byte of that pixel, most significant bit first. -/
theorem test_bits : (bitsOf 0x44#8).map Bool.toNat = [0, 1, 0, 0, 0, 1, 0, 0] := by decide
/-- R108 with T0H 1, T1H 2, T_BIT 3. -/
theorem test_waveform : waveform build true = [true, true, false] ∧ waveform build false = [true, false, false] := by decide
/-- V-S1: the end of the walk. -/
theorem test_cursor_ends : Cursor.advance ⟨24, .r⟩ = some ⟨24, .b⟩ ∧ Cursor.advance ⟨24, .b⟩ = none := by decide
/-- R74: one line of text with a comment; hexadecimal and decimal operands. -/
theorem test_assembler_text :
    parseLine ['M', 'A', 'P', ' ', '2', ',', ' ', '0', 'x', '3', ' ', ';', 'x'] = .ok (some (.map 2 3)) ∧
      assembleLine (.map 2 3) = .ok [0xC0000023#32] := by decide
/-- P4: PLOT 0, 0 reaches pixel 24. -/
theorem test_plot : assembleLine (.plot 0 0 255 255 255) = .ok [0x58FFFFFF#32] := by decide

/-! ## Witnesses: states and operands that meet the hypotheses of the statements -/

/-- The IDLE block after INIT meets the invariant, for every build. -/
theorem idleBlock_inv (P : Params) : (idleBlock P).Inv P := by
  refine ⟨rfl, by simp [idleBlock, State.reset], respAllowed_responseWord .ok, by simp [idleBlock, lineLevel, State.reset], ?_⟩
  simp [idleBlock, State.phaseInv, State.reset, State.afterInit, State.streamerAtRest, Cursor.start]

/-- The invariant does not read the input ports. -/
theorem present_inv {P : Params} {s : State} (h : s.Inv P) (w : Word) : (s.present w).Inv P :=
  ⟨h.buf, h.fifo, h.resp, h.dout, h.phase⟩

/-- A block in FAULT: reset released with CHANNEL_OK = false. -/
def stuckBlock : State := { State.reset with phase := .fault }
theorem stuckBlock_inv : stuckBlock.Inv build := by
  refine ⟨rfl, by decide, by decide, by decide, ?_⟩
  simp [stuckBlock, State.phaseInv, State.reset, State.streamerAtRest, Cursor.start, Memory.zero]

/-- A block in GAP at cycle `n` of the gap after an EMIT. -/
def gapBlock (n : Nat) : State := { State.reset with phase := .gap, gapt := n, job := some 0x80000000#32 }
theorem gapBlock_inv (n : Nat) (h : n < build.gapCycles) : (gapBlock n).Inv build := by
  refine ⟨rfl, by simp [gapBlock, State.reset], respAllowed_responseWord .ok, by simp [gapBlock, State.reset, lineLevel], ?_⟩
  simp only [gapBlock, State.phaseInv]
  exact ⟨by simp [State.reset, State.streamerAtRest, Cursor.start], rfl, h, _, rfl, by decide⟩

/-- A block in STREAM that has just loaded its first byte. -/
def streamBlock : State :=
  { State.reset with phase := .stream, buf := someBuf, cur := some ⟨0, .r⟩, shift := 0x80, txByte := 0x80, nbit := 8,
                     dout := true, job := some 0x80000000#32 }

/-- A host between two ticks, with no tick done. -/
def host (counter last : Nat) (pending : Bool) : RefHost := ⟨counter, last, pending, false, .loop, 0, 0⟩
/-- V-H1, V-H2: exactly 200 ms drops, 201 ms counts. -/
theorem test_debounce : (host 0 0 false).onIncrement build 200 = host 0 0 false ∧
    (host 0 0 false).onIncrement build 201 = host 1 201 true := by decide
/-- V-H5, V-H6: a blocked increment, with and without FLAG_ON_BLOCKED. -/
theorem test_blocked : (host 9 1000 false).onIncrement build 1300 = host 9 1300 true ∧
    (host 9 1000 false).onIncrement { build with flagOnBlocked := false } 1300 = host 9 1300 false := by
  decide
/-- V-H9: the tick clears the flag and presents RENDER 4; W6: not before 100 ms. -/
theorem test_tick_pending : (host 4 1300 true).tick 99 = host 4 1300 true ∧ ((host 4 1300 true).tick 100).polling =
      .issuing (.render 4) ∧ ((host 4 1300 true).tick 100).renderPending = false ∧
    ((host 4 1300 true).tick 100).tickDue = 200 := by decide
/-- V-H10: only the indicator toggles. -/
theorem test_tick_quiet : (host 4 1300 false).tick 100 = { host 4 1300 false with indicator := true, ticks := 1 } := by decide
/-- R139: a host keeps its command while the block is in GAP, and has it answered when the block is IDLE. -/
theorem test_host_waits :
    (accepted? ({ host 4 0 false with polling := .issuing (.render 4) }.drive (gapBlock 0))) = none ∧
      (accepted? ({ host 4 0 false with polling := .issuing (.render 4) }.drive (idleBlock build))) = some 0xA0000004#32 := by
  decide
/-- R148: INIT and FAULT are not over; a MAP and an ILLEGAL word are a run of two responses. -/
theorem test_run : State.reset.over = false ∧ stuckBlock.observe = none ∧
    (observeRun [presentation 0xC0000000, presentation 0] litBlock).map (·.responses) =
      some [0x00001800#32, 0x00000002#32] := by decide

theorem witness_decodeOfEncode : (Instr.writePixel 31 0xFF 0 0xFF).wf = true ∧ (Instr.map 15 15).wf = true := by decide
theorem witness_encodeOfDecode : decode 0x5FFFFFFF#32 = .ok (.writePixel 31 0xFF#8 0xFF#8 0xFF#8) := by decide
theorem witness_illegalWords :
    let s := (idleBlock build).present 0xDFFFFF00#32
    s.cmdReady = true ∧ s.port.cmdValid = true ∧ decode s.port.cmd = .error .reservedBits := by decide
theorem witness_reset : ({ streamBlock with port := ⟨true, false, 0⟩ } : State).port.rst = true := rfl
/-- No channel and one edge; with a channel no edge yet, the last edge before the bound, and the bound. -/
theorem witness_init :
    noReset [⟨false, true, 0⟩] ∧ ({ build with channelOk := false } : Params).channelOk = false ∧
      build.channelOk = true ∧ ([] : List PortIn).length < build.gapCycles ∧
      (List.replicate 1199 (⟨false, false, 0⟩ : PortIn)).length < build.gapCycles ∧
      (List.replicate 1200 (⟨false, false, 0⟩ : PortIn)).length = build.gapCycles := by
  refine ⟨by simp [noReset], rfl, rfl, by decide, ?_, ?_⟩ <;> rw [List.length_replicate] <;> decide
theorem witness_fault : stuckBlock.Inv build ∧ stuckBlock.phase = .fault ∧ stuckBlock.port.rst = false ∧
    noReset [⟨false, true, 0x20000000⟩] := ⟨stuckBlock_inv, rfl, rfl, by simp [noReset]⟩
/-- R142, S1: a reset in STREAM leaves the LEDs at any value; here the one this build draws, copied by channel name. -/
theorem test_cut_frame_leaves_any_value :
    ((watch build (streamBlock, ⟨[], 4⟩) [⟨true, false, 0⟩]).2.leds.getD 7 ⟨0, 0, 0⟩) = ⟨0x02#8, 0x01#8, 7#8⟩ := by decide
theorem witness_flags : streamBlock.port.rst = false ∧ streamBlock.phase = .stream := ⟨rfl, rfl⟩
theorem witness_ready : litBlock.cmdReady = true ∧ (idleBlock Config.params).cmdReady = true := ⟨rfl, rfl⟩
/-- The boundary words of the encodings' ILLEGAL clauses. -/
theorem witness_reservedWords :
    (opcode 0x30000000#32 = 0b001#3 ∧ (0x30000000#32 : Word) ≠ 0x20000000#32) ∧
      (opcode 0x5FFFFFFF#32 = 0b010#3) ∧
      (opcode 0x60000010#32 = 0b011#3 ∧ (0x60000010#32 : Word).extractLsb' 4 25 ≠ 0) ∧
      (opcode 0x80000001#32 = 0b100#3 ∧ (0x80000001#32 : Word) ≠ 0x80000000#32) ∧
      (opcode 0xB0000000#32 = 0b101#3 ∧ (0xB0000000#32 : Word).extractLsb' 4 25 ≠ 0) ∧
      (opcode 0xC0000100#32 = 0b110#3 ∧ (0xC0000100#32 : Word).extractLsb' 8 21 ≠ 0) := by decide
/-- WRITE_PIXEL's clauses at 24, 25 and 31, and an address on each side of pixel 24. -/
theorem witness_writePixel : litBlock.cmdReady = true ∧ 24 ≤ 24 ∧ 24 < 25 ∧ 31 < 32 ∧ 71 < 3 * 24 ∧ 3 * 24 + 3 ≤ 75 := by
  decide
theorem witness_map : litBlock.cmdReady = true ∧ (4 ≤ 4 ∧ 0 ≤ 4) ∧ (4 < 5 ∨ 4 < 4) ∧ (4 < 4 ∨ 4 < 5) := by decide
theorem witness_draw_render : litBlock.cmdReady = true ∧ (9 : Fin 10).val = 9 ∧ 9 < 10 ∧ (idleBlock build).cmdReady = true := by
  decide
/-- AfterRender: a RENDER 9, a RENDER 10 and an ILLEGAL RENDER word, each accepted. -/
theorem witness_afterRender :
    [0xA0000009#32, 0xA000000A#32, 0xA0000010#32].map
      (fun w => ((litBlock.present w).cmdReady, (litBlock.present w).port.cmdValid, opcode (litBlock.present w).port.cmd,
        (transact build w litBlock).resp)) =
      [(true, true, 0b101#3, 0x00000000#32), (true, true, 0b101#3, 0x00000001#32), (true, true, 0b101#3, 0x00000002#32)] ∧
    (∃ t, step (litBlock.present 0xA0000009#32) = .next t) ∧ (∃ t, step (litBlock.present 0xA000000A#32) = .next t) ∧
    (∃ t, step (litBlock.present 0xA0000010#32) = .next t) := ⟨by decide +kernel, ⟨_, rfl⟩, ⟨_, rfl⟩, ⟨_, rfl⟩⟩
theorem witness_frames : (∃ t, exec .clear litBlock = .next t ∧ t.buf ≠ litBlock.buf) ∧
    (∃ t, exec .emit litBlock = .next t ∧ t.events ≠ litBlock.events ∧ t.frames ≠ litBlock.frames) :=
  ⟨⟨_, rfl, by decide⟩, ⟨_, rfl, by decide, by decide⟩⟩
theorem witness_outOfRange : litBlock.cmdReady = true ∧ 25 ≤ 25 ∧ 10 ≤ 10 ∧ (5 ≤ 5 ∨ 5 ≤ 4) ∧ (5 ≤ 4 ∨ 5 ≤ 5) := by decide
theorem witness_repeating : litBlock.cmdReady = true ∧ litBlock.buf.wf = true ∧ Instr.draw 15 ≠ .emit ∧
    (∀ d, Instr.draw 15 ≠ .render d) ∧ 9 ≤ 9 := ⟨rfl, by decide, by decide, by simp, by decide⟩
theorem witness_stepRuns :
    (litBlock.present 0x20000000#32).cmdReady = true ∧ (litBlock.present 0x20000000#32).port.cmdValid = true ∧
      decode (litBlock.present 0x20000000#32).port.cmd = .ok .clear ∧ decodeTableWord 32 0x5FFFFFFF =
        some (.writePixel 31 0xFF 0xFF 0xFF) := by decide
theorem witness_idleWaits : litBlock.cmdReady = true ∧ litBlock.port.cmdValid = false := ⟨rfl, rfl⟩
theorem witness_busyIgnores : streamBlock.phase ≠ .idle ∧ streamBlock.phase ≠ .fault ∧ stuckBlock.phase ≠ .idle := by decide
theorem witness_clockEdgeInvariant : (gapBlock 1199).Inv build ∧ (idleBlock build).Inv build ∧ stuckBlock.Inv build :=
  ⟨gapBlock_inv 1199 (by decide), idleBlock_inv build, stuckBlock_inv⟩
theorem witness_stepInvariant : ((idleBlock Config.params).present 0x80000000#32).Inv Config.params ∧
    ∃ t, step ((idleBlock Config.params).present 0x80000000#32) = .next t :=
  ⟨present_inv (idleBlock_inv _) _, _, rfl⟩
/-- A build whose gap is one cycle (T_GAP = 100 us at 10 kHz): one edge from reset is IDLE. -/
theorem witness_idleMeans : (cycles { build with clkNum := 0, clkDen := 99 } State.reset [⟨false, false, 0⟩]).phase = .idle := by
  decide
theorem witness_lineLow : (clockEdge build (gapBlock 0)).phase ≠ .stream ∧ (cycles build State.reset []).phase ≠ .stream ∧
    (streamBlock.phase ≠ .stream → streamBlock.dout = false) ∧ litBlock.dout = false ∧ litBlock.phase ≠ .stream ∧
    ∃ t, step litBlock = .next t ∧ t.phase ≠ .stream :=
  ⟨by decide, by decide, by decide, rfl, by decide, _, rfl, by decide⟩
/-- Acceptance of an EMIT and of another word, with the invariant; an L_CMD of 2 at one edge and at two. -/
theorem witness_acceptance :
    let s := (idleBlock build).present 0x80000000#32
    let u := (idleBlock build).present 0xC00000FF#32
    s.Inv build ∧ s.cmdReady = true ∧ s.port.cmdValid = true ∧ decode s.port.cmd = .ok .emit ∧
      u.Inv build ∧ u.cmdReady = true ∧ u.port.cmdValid = true ∧ decode u.port.cmd ≠ .ok .emit ∧
      jobOf u.port.cmd = .short ∧ 1 < build.lCmd ∧ 2 = build.lCmd :=
  ⟨present_inv (idleBlock_inv _) _, rfl, rfl, rfl, present_inv (idleBlock_inv _) _, rfl, rfl, by decide, by decide, by decide,
    by decide⟩
/-- An emitter with room, and one with a full FIFO. -/
theorem witness_emitter : streamBlock.phase = .stream ∧ streamBlock.wait = 0 ∧ streamBlock.port.rst = false ∧
    streamBlock.cur = some ⟨0, .r⟩ ∧ streamBlock.fifo.length < build.fifoDepth ∧
    ¬ ({ streamBlock with fifo := [1, 2] } : State).fifo.length < build.fifoDepth := by decide
theorem witness_streamLosesNoByte : streamBlock.phase = .stream ∧ streamBlock.port.rst = false ∧
    ∀ x, streamBlock.cur = some x → x.k < 25 := ⟨rfl, rfl, by rintro x ⟨⟩; decide⟩
theorem witness_byteGoesOut : streamBlock.nbit = 8 ∧ streamBlock.bitT = 0 ∧ streamBlock.dout = lineLevel build streamBlock ∧
    noReset (List.replicate 23 ⟨false, false, 0⟩) ∧
    (List.replicate 23 (⟨false, false, 0⟩ : PortIn)).length + 1 = 8 * build.tBit :=
  ⟨rfl, rfl, by decide, by simp [noReset], by decide⟩
/-- GAP with a cycle to spare, and at its last edge. -/
theorem witness_gap : (gapBlock 1198).Inv build ∧ (gapBlock 1198).phase = .gap ∧
    1198 + [(⟨false, false, 0⟩ : PortIn)].length < build.gapCycles ∧ (gapBlock 1199).Inv build ∧
    1199 + [(⟨false, false, 0⟩ : PortIn)].length = build.gapCycles :=
  ⟨gapBlock_inv _ (by decide), rfl, by decide, gapBlock_inv _ (by decide), by decide⟩
theorem witness_pseudo : (4 ≤ 4 ∧ 0 ≤ 4) ∧ (4 < 5 ∨ 4 < 0) ∧ 255 < 256 := by decide
theorem witness_assembled : (32 ≤ 32 ∨ 256 ≤ 0) ∧ 16 ≤ 16 ∧ (∀ w, AsmLine.blank ≠ .word w) ∧
    assembleLine .blank = .ok [0x20000000#32, 0x80000000#32] := ⟨by decide, by decide, by simp, by decide⟩
/-- The window's last dropped moment and its first accepted one; the counter at its bounds. -/
theorem witness_window : 1200 ≤ 1000 + 200 ∧ 1000 + 200 < 1201 ∧ (8 < 9 ∧ 9 ≤ 9 ∧ 0 < 1) := by decide
/-- A due tick with render-pending set on an IDLE block; one that is not due; a counter at its bound. -/
theorem witness_system :
    let y : System := ⟨host 9 0 true, idleBlock build⟩
    y.block.phase = .idle ∧ y.host.counter = (9 : Fin 10).val ∧ y.host.polling = .loop ∧ y.host.tickDue ≤ 100 ∧
      99 < y.host.tickDue ∧ y.host.renderPending = true ∧ y.host.counter ≤ 9 ∧
      ∃ z, y.handle build (.increment 300) = .next z := ⟨rfl, rfl, rfl, by decide, by decide, rfl, by decide, _, rfl⟩
theorem witness_system_quiet :
    let y : System := ⟨host 0 0 false, idleBlock build⟩
    y.host.polling = .loop ∧ y.host.tickDue ≤ 100 ∧ y.host.renderPending = false := ⟨rfl, by decide, rfl⟩
/-- A host that waits on a block in GAP, in IDLE and in FAULT. -/
theorem witness_hostWaits : ({ host 4 0 false with polling := .issuing (.render 4) } : RefHost).polling =
      .issuing (.render 4) ∧ (Instr.render 4).wf = true ∧ (gapBlock 0).phase ≠ .idle ∧ (gapBlock 0).phase ≠ .fault ∧
    (idleBlock build).phase = .idle ∧ stuckBlock.phase = .fault := by decide
theorem witness_startUp : (idleBlock build).phase = .idle ∧ (RefHost.start build).polling = .boot ∧
    0 ≤ Config.params.gapCycles := ⟨rfl, rfl, Nat.zero_le _⟩
theorem witness_run : litBlock.phase = .idle ∧ litBlock.job = none ∧ stuckBlock.phase = .fault ∧
    noReset [⟨false, true, 0x20000000⟩] := ⟨rfl, rfl, rfl, by simp [noReset]⟩

end Sys2Proof.Tests
end

section
/-!
SUPPORT. A whole command at the port and wire level (R6, R22, R71, R103): the edge that accepts it, its cycles in EXEC, its
frame and gap, and the state it leaves. The statement over every command word is assembled from these.
-/

namespace Sys2Proof.Machine

/-! ## A command in progress -/

/-- A block `s` in which the command word `w` is in progress: in phase `ph`, with `n` cycles to wait, `f` frames begun and
input levels `i`. Every other field is as `s` has it. -/
def State.running (w : Word) (ph : Phase) (n f : Nat) (i : PortIn) (s : State) : State :=
  { s with phase := ph, job := some w, wait := n, frames := f, port := i, respValid := false }

/-- A block `s` that begins its next frame for the command word `w`: STREAM, with the frame counted (R99, S4). -/
def State.beginFrame (P : Params) (w : Word) (i : PortIn) (s : State) : State :=
  s.running w .stream (P.startup s.frames) (s.frames + 1) i

/-- The cycles of frame number `f`: start-up, the first byte into FIFO and into SHIFT, 600 bit periods, the gap (R113, S4). -/
def frameEdges (P : Params) (f : Nat) : Nat := P.startup f + 2 + 600 * P.tBit + P.gapCycles

/-- What the invariant says of an IDLE block (R34). -/
theorem idle_atRest {P : Params} {s : State} (h : s.Inv P) (hp : s.phase = .idle) :
    s.streamerAtRest ∧ s.job = none ∧ s.wait = 0 ∧ s.gapt = P.gapCycles := by
  simpa only [State.phaseInv, hp] using h.phase

/-- Clearing and drawing keep the invariant of the IDLE block: they write BUF alone (R78, R92). -/
theorem drawn_inv {P : Params} {s : State} (h : s.Inv P) (hp : s.phase = .idle) (d : Fin nGlyphs) :
    (s.clearBuf.drawDigit P d).Inv P := by
  refine ⟨Memory.wf_draw _ _ Memory.wf_zero, h.fifo, h.resp, h.dout, ?_⟩
  have hrest := idle_atRest h hp
  simp only [State.phaseInv, State.drawDigit_phase, State.clearBuf_phase, hp]
  exact hrest

/-- An IDLE block that begins a frame meets the invariant, when its command is one that sends a frame (R99). -/
theorem beginFrame_inv {P : Params} {s : State} {w : Word} (h : s.Inv P) (hp : s.phase = .idle)
    (hw : jobOf w ≠ .short) (i : PortIn) : (s.beginFrame P w i).Inv P := by
  obtain ⟨⟨hfifo, hnbit, hshift, hbitT, htx, hcur, hdout⟩, -, -, hgapt⟩ := idle_atRest h hp
  refine ⟨h.buf, h.fifo, h.resp, by simp [State.beginFrame, State.running, lineLevel, hnbit, hdout], ?_⟩
  refine ⟨hgapt, ⟨w, rfl, hw⟩, fun x hx => ?_, .inl ⟨hnbit, hshift, hbitT, htx, .inl ⟨hcur, hfifo⟩⟩⟩
  obtain rfl : Cursor.start = x := Option.some.inj (hcur.symm.trans hx)
  decide

/-! ## Acceptance (R22, R70) -/

section
variable {P : Params} {s : State} (hr : s.cmdReady = true) (hv : s.port.cmdValid = true)
include hr hv

/-- The edge at which a ready block accepts the word at its port. -/
theorem clockEdge_accepts : clockEdge P s = (acceptEdge P s.quiet).levelled P := by
  obtain ⟨hp, hrst⟩ := (cmdReady_iff s).mp hr
  simp [clockEdge_run hrst, phaseEdge, State.quiet, hp, hv]

variable (hI : s.Inv P)
include hI

theorem clockEdge_accepts_short (h : jobOf s.port.cmd = .short) :
    clockEdge P s = s.running s.port.cmd .exec P.lCmd s.frames s.port := by
  obtain ⟨⟨-, -, -, -, -, -, hdout⟩, -⟩ := idle_atRest hI ((cmdReady_iff s).mp hr).1
  rw [clockEdge_accepts hr hv]
  simp [acceptEdge, State.quiet, h, State.levelled, lineLevel, State.enterExec, State.running, hdout]

theorem clockEdge_accepts_emit (h : jobOf s.port.cmd = .emit) :
    clockEdge P s = s.beginFrame P s.port.cmd s.port := by
  obtain ⟨⟨-, hnbit, -, -, -, hcur, hdout⟩, -⟩ := idle_atRest hI ((cmdReady_iff s).mp hr).1
  rw [clockEdge_accepts hr hv]
  simp [acceptEdge, State.quiet, h, State.levelled, lineLevel, State.enterStream, State.beginFrame, State.running, hnbit,
    hcur, hdout]

theorem clockEdge_accepts_render {d : Fin nGlyphs} (h : jobOf s.port.cmd = .render d) :
    clockEdge P s = s.running s.port.cmd .exec (P.renderCycles s.frames) (s.frames + 1) s.port := by
  obtain ⟨⟨-, -, -, -, -, -, hdout⟩, -⟩ := idle_atRest hI ((cmdReady_iff s).mp hr).1
  rw [clockEdge_accepts hr hv]
  simp [acceptEdge, State.quiet, h, State.levelled, lineLevel, State.enterExec, State.running, hdout]

end

/-! ## EXEC to its end (R71) -/

/-- EXEC from any of its cycles to its end: the last edge completes the command in progress. -/
theorem exec_whole {P : Params} (ins : List PortIn) {u : State} {w : Word} (hp : u.phase = .exec) (hd : u.dout = false)
    (hj : u.job = some w) (h : noReset ins) (hw : 0 < u.wait) (hn : ins.length = u.wait) :
    cycles P u ins =
      (completeExec P w { u with wait := 1, port := portAfter u ins, respValid := false }).levelled P := by
  rcases List.eq_nil_or_concat' ins with rfl | ⟨is, i, rfl⟩
  · rw [List.length_nil] at hn; omega
  · simp only [noReset_append, noReset_cons] at h
    simp only [List.length_append, List.length_cons, List.length_nil] at hn
    rw [cycles_append, exec_run is u hp hd h.1 (by omega), cycles_cons, cycles_nil, clockWith_run h.2.1]
    simp [phaseEdge, execEdge, State.quiet, hp, hj, portAfter, show u.wait - is.length = 1 by omega]

/-- A short command writes the same BUF and gives the same response on every block with the same BUF (R73). -/
theorem transact_short_alike {P : Params} {s : State} {w : Word} (hw : jobOf w = .short) :
    ∃ m r, ∀ u : State, u.buf = s.buf →
      transact P w u = { u with buf := m, resp := r, respValid := true, responses := u.responses ++ [r] } :=
  ⟨_, _, fun _ hu => transact_short_of_buf hw hu.symm⟩

section
variable {P : Params} {s : State} {w : Word} (hI : s.Inv P) (hp : s.phase = .idle)
include hI hp

/-- A command stays in EXEC until its last cycle there. -/
theorem running_exec_phase {n f : Nat} {i : PortIn} {ins : List PortIn} (h : noReset ins) (hn : ins.length < n) :
    (cycles P (s.running w .exec n f i) ins).phase = .exec := by
  obtain ⟨⟨-, -, -, -, -, -, hdout⟩, -⟩ := idle_atRest hI hp
  rw [exec_run ins (s.running w .exec n f i) rfl hdout h hn]
  rfl

/-- The end of EXEC is the whole transaction of a short command (R71). -/
theorem running_exec_short (hw : jobOf w = .short) {n : Nat} {i : PortIn} {ins : List PortIn} (h : noReset ins)
    (h0 : 0 < n) (hn : ins.length = n) :
    cycles P (s.running w .exec n s.frames i) ins = { transact P w s with port := ins.getLast?.getD i } := by
  obtain ⟨⟨-, -, -, -, -, -, hdout⟩, hjob, hwait, -⟩ := idle_atRest hI hp
  rw [exec_whole (u := s.running w .exec n s.frames i) ins rfl hdout rfl h h0 hn, completeExec, hw]
  simp only
  obtain ⟨m, r, ht⟩ := transact_short_alike (P := P) (s := s) hw
  rw [ht s rfl, ht]
  · simp [State.running, State.retire, State.levelled, lineLevel, portAfter, hp, hjob, hwait, hdout]
  · rfl

/-- The end of EXEC clears and draws for RENDER, and begins the frame (R93). -/
theorem running_exec_render {d : Fin nGlyphs} (hw : jobOf w = .render d) {n : Nat} {i : PortIn} {ins : List PortIn}
    (h : noReset ins) (h0 : 0 < n) (hn : ins.length = n) :
    cycles P (s.running w .exec n (s.frames + 1) i) ins =
      (s.clearBuf.drawDigit P d).beginFrame P w (ins.getLast?.getD i) := by
  obtain ⟨⟨-, hnbit, -, -, -, hcur, hdout⟩, -⟩ := idle_atRest hI hp
  rw [exec_whole (u := s.running w .exec n (s.frames + 1) i) ins rfl hdout rfl h h0 hn, completeExec, hw]
  simp [State.beginFrame, State.running, State.levelled, lineLevel, State.enterStream, State.drawDigit, State.clearBuf,
    portAfter, hnbit, hcur, hdout]

/-! ## A frame and its gap (R99 to R103) -/

/-- From the entry to STREAM: not IDLE before the start-up cycles, the 600 bit periods and the gap have passed, and then the
frame's end. -/
theorem beginFrame_whole (hw : jobOf w ≠ .short) (i : PortIn) {ins : List PortIn} (h : noReset ins) :
    (ins.length < frameEdges P s.frames → (cycles P (s.beginFrame P w i) ins).phase ≠ .idle) ∧
    (ins.length = frameEdges P s.frames → cycles P (s.beginFrame P w i) ins =
      finishFrame { (s.beginFrame P w i).framed (ins.getLast?.getD i) with gapt := P.gapCycles }) := by
  obtain ⟨⟨hfifo, hnbit, -, -, -, hcur, -⟩, -⟩ := idle_atRest hI hp
  have hline : ((s.beginFrame P w i).lineLeft P).length + P.gapCycles = frameEdges P s.frames := by
    rw [lineLeft_start (s := s.beginFrame P w i) hnbit hfifo hcur]
    simp [frameWaveform_length, State.beginFrame, State.running, frameEdges]
  obtain ⟨hbefore, hend⟩ := frame_run (beginFrame_inv hI hp hw i) rfl ins h
  rw [hline] at hbefore hend
  exact ⟨hbefore, fun hn => (hend hn).1⟩

/-- The last edge of STREAM leaves the frame's bytes among the events and the streamer at rest (R97, R111). -/
theorem framed_beginFrame (i q : PortIn) :
    (s.beginFrame P w i).framed q = { s with
      phase := .gap, events := s.events ++ s.buf.frame.map Event.byte, gapt := 0, job := some w, frames := s.frames + 1,
      respValid := false, port := q } := by
  obtain ⟨⟨hfifo, hnbit, hshift, hbitT, htx, hcur, hdout⟩, -, hwait, -⟩ := idle_atRest hI hp
  have hpend : (s.beginFrame P w i).pending = s.buf.frame :=
    pending_start (s := s.beginFrame P w i) rfl hnbit hfifo hcur
  rw [State.framed, hpend]
  simp [State.beginFrame, State.running, hfifo, hnbit, hshift, hbitT, htx, hcur, hdout, hwait]

/-- The frame of an EMIT has ended: EMIT's transaction (R97, R103). -/
theorem finishFrame_emit (hw : jobOf w = .emit) (i q : PortIn) :
    finishFrame { (s.beginFrame P w i).framed q with gapt := P.gapCycles } =
      { (s.emitFrame P).respond .ok 0 with port := q } := by
  obtain ⟨-, hjob, hwait, -⟩ := idle_atRest hI hp
  rw [framed_beginFrame hI hp]
  simp [finishFrame, hw, State.respond, State.retire, State.emitFrame, frameEvents, hp, hjob, hwait]

/-- The frame of a RENDER has ended: BUF is cleared once more (R93, R103). -/
theorem finishFrame_render {d : Fin nGlyphs} (hw : jobOf w = .render d) (i q : PortIn) :
    finishFrame { (s.beginFrame P w i).framed q with gapt := P.gapCycles } =
      { (s.emitFrame P).clearBuf.respond .ok 0 with port := q } := by
  obtain ⟨-, hjob, hwait, -⟩ := idle_atRest hI hp
  rw [framed_beginFrame hI hp]
  simp [finishFrame, hw, State.respond, State.clearBuf, State.retire, State.emitFrame, frameEvents, hp, hjob, hwait]

end

/-! ## The whole command (R6) -/

/-- The edges from a word's acceptance to its response, for a block that has begun `f` frames. -/
def commandEdges (P : Params) (w : Word) (f : Nat) : Nat :=
  match jobOf w with
  | .short => P.lCmd
  | .emit => frameEdges P f
  | .render _ => P.renderCycles f + frameEdges P f

/-- The edges `ins` after the acceptance of the word at the port carry out its transaction and no more: not IDLE before
`n` of them, and after `n` in the transaction's state. -/
def State.carriesOut (P : Params) (s : State) (n : Nat) (ins : List PortIn) : Prop :=
  (ins.length < n → (cycles P (clockEdge P s) ins).phase ≠ .idle) ∧
  (ins.length = n → cycles P (clockEdge P s) ins = { transact P s.port.cmd s with port := portAfter s ins })

theorem commandEdges_pos (P : Params) (w : Word) (f : Nat) : 0 < commandEdges P w f := by
  unfold commandEdges
  split
  · exact Nat.succ_pos _
  · unfold frameEdges; omega
  · unfold frameEdges; omega

section
variable {P : Params} {s : State} (hI : s.Inv P) (hr : s.cmdReady = true) (hv : s.port.cmdValid = true)
include hI hr hv

theorem carriesOut_short (hw : jobOf s.port.cmd = .short) {ins : List PortIn} (h : noReset ins) :
    s.carriesOut P P.lCmd ins := by
  have hp := ((cmdReady_iff s).mp hr).1
  rw [State.carriesOut, clockEdge_accepts_short hr hv hI hw]
  refine ⟨fun hn => ?_, running_exec_short hI hp hw h (Nat.succ_pos _)⟩
  rw [running_exec_phase hI hp h hn]
  decide

theorem carriesOut_emit (hw : jobOf s.port.cmd = .emit) {ins : List PortIn} (h : noReset ins) :
    s.carriesOut P (frameEdges P s.frames) ins := by
  have hp := ((cmdReady_iff s).mp hr).1
  have hframe : jobOf s.port.cmd ≠ .short := by simp [hw]
  obtain ⟨hbefore, hend⟩ := beginFrame_whole hI hp hframe s.port h
  rw [State.carriesOut, clockEdge_accepts_emit hr hv hI hw, transact_emit hw]
  exact ⟨hbefore, fun hn => (hend hn).trans (finishFrame_emit hI hp hw _ _)⟩

/-- RENDER is its cycles in EXEC and then the frame of the drawn buffer (R93). -/
theorem carriesOut_render {d : Fin nGlyphs} (hw : jobOf s.port.cmd = .render d) {ins : List PortIn} (h : noReset ins) :
    s.carriesOut P (P.renderCycles s.frames + frameEdges P s.frames) ins := by
  have hp := ((cmdReady_iff s).mp hr).1
  have hdrawn := drawn_inv hI hp d
  have hframe : jobOf s.port.cmd ≠ .short := by simp [hw]
  have hexec : 0 < P.renderCycles s.frames := Nat.succ_pos _
  rw [State.carriesOut, clockEdge_accepts_render hr hv hI hw, transact_render hw]
  by_cases hlt : ins.length < P.renderCycles s.frames
  · refine ⟨fun _ => ?_, fun hn => by omega⟩
    rw [running_exec_phase hI hp h hlt]
    decide
  · obtain ⟨a, b, rfl, ha⟩ := exists_split_at ins (P.renderCycles s.frames) (by omega)
    obtain ⟨hra, hrb⟩ := noReset_append.mp h
    obtain ⟨hbefore, hend⟩ := beginFrame_whole hdrawn hp hframe (portAfter s a) hrb
    rw [State.drawDigit_frames, State.clearBuf_frames] at hbefore hend
    rw [cycles_append, running_exec_render hI hp hw hra hexec ha, List.length_append, ha,
      portAfter_append s { s with port := portAfter s a } a b rfl]
    exact ⟨fun hn => hbefore (by omega), fun hn =>
      (hend (by omega)).trans (finishFrame_render hdrawn hp hw _ _)⟩

/-- Every accepted word is carried out in its number of edges, whatever the input levels are meanwhile. -/
theorem carriesOut_command {ins : List PortIn} (h : noReset ins) :
    s.carriesOut P (commandEdges P s.port.cmd s.frames) ins := by
  unfold commandEdges
  split
  · next hw => exact carriesOut_short hI hr hv hw h
  · next hw => exact carriesOut_emit hI hr hv hw h
  · next hw => exact carriesOut_render hI hr hv hw h

end

/-- Settles O43: after the acceptance edge the block goes through EXEC, STREAM and GAP as the word's job asks, and the last of
the word's `commandEdges` leaves the transaction's state. -/
theorem wireLevelRunIsTheTransaction : Obligations.WireLevelRunIsTheTransaction := fun P s hI hr hv =>
  ⟨commandEdges P s.port.cmd s.frames, commandEdges_pos P _ _, fun _ h => carriesOut_command hI hr hv h⟩

end Sys2Proof.Machine
end

section
/-!
SUPPORT. The times of R8 as numbers of cycles: the gap GAPT counts is T_GAP rounded up to whole cycles.
-/

namespace Sys2Proof

/-- `ceilDiv n d` is the least whole number at or above `n / d`. -/
theorem ceilDiv_bounds (n : Nat) {d : Nat} (hd : 0 < d) : n ≤ ceilDiv n d * d ∧ ceilDiv n d * d < n + d := by
  have hdiv : (n + d - 1) / d * d + (n + d - 1) % d = n + d - 1 := Nat.div_add_mod' _ _
  have hmod := Nat.mod_lt (n + d - 1) hd
  unfold ceilDiv
  omega

/-- The gap in cycles against T_GAP times F_CLK (R31, R103). -/
theorem Params.gapCycles_bounds (P : Params) :
    P.tGap.1 * P.fClk.1 ≤ P.gapCycles * (P.tGap.2 * P.fClk.2) ∧
      P.gapCycles * (P.tGap.2 * P.fClk.2) < P.tGap.1 * P.fClk.1 + P.tGap.2 * P.fClk.2 :=
  ceilDiv_bounds _ (Nat.mul_pos (Nat.succ_pos _) (Nat.succ_pos _))

/-- T_GAP is at least T_RESET_MIN (R8). -/
theorem Params.tGap_ge (P : Params) : tResetMin * P.tGap.2 ≤ P.tGap.1 := Nat.le_add_right _ _

/-- The gap's cycles last at least T_RESET_MIN (R102). -/
theorem Params.gapCycles_ge (P : Params) : tResetMin * P.fClk.1 ≤ P.gapCycles * P.fClk.2 := by
  have hpos : 0 < P.tGap.2 := Nat.succ_pos _
  refine Nat.le_of_mul_le_mul_left ?_ hpos
  calc P.tGap.2 * (tResetMin * P.fClk.1) = tResetMin * P.tGap.2 * P.fClk.1 := by ring
    _ ≤ P.tGap.1 * P.fClk.1 := Nat.mul_le_mul_right _ P.tGap_ge
    _ ≤ P.gapCycles * (P.tGap.2 * P.fClk.2) := P.gapCycles_bounds.1
    _ = P.tGap.2 * (P.gapCycles * P.fClk.2) := by ring

/-- The order of the times of a bit (R8). -/
theorem Params.bit_times (P : Params) : 0 < P.t0h ∧ P.t0h < P.t1h ∧ P.t1h < P.tBit := by
  simp only [Params.t0h, Params.t1h, Params.tBit]
  omega

/-- Settles O45: the gap is T_GAP in whole cycles, rounded up, and T_GAP is T_RESET_MIN or more. -/
theorem gapIsAtLeastOneHundredMicroseconds : Obligations.GapIsAtLeastOneHundredMicroseconds := fun P =>
  ⟨P.gapCycles_bounds.1, P.gapCycles_bounds.2, P.tGap_ge, P.gapCycles_ge, P.bit_times⟩

end Sys2Proof
end

section
/-!
SUPPORT. The invariant of every phase, put together: it holds at reset, every clock edge and every step keeps it, and so it
holds along every run. What R34 and R109 say of IDLE and of the line follows.
-/

namespace Sys2Proof.Machine

/-! ## Reset and one clock edge -/

/-- Settles O31: reset is `inReset` of itself. -/
theorem resetMeetsTheInvariant : Obligations.ResetMeetsTheInvariant := fun P => inReset_inv P State.reset

theorem State.Inv.dout_low {P : Params} {s : State} (h : s.Inv P) (hp : s.phase ≠ .stream) : s.dout = false :=
  h.dout.trans (lineLevel_eq_false hp)

/-- In FAULT an edge changes nothing: RESP_VALID and the line are low already (R124). -/
theorem fault_stays {P : Params} {s : State} (h : s.Inv P) (hp : s.phase = .fault) : s.quiet.levelled P = s := by
  have hphase := h.phase
  simp only [State.phaseInv, hp] at hphase
  obtain ⟨-, -, -, -, -, -, hvalid⟩ := hphase
  have hquiet : s.quiet = s := by rw [State.quiet, ← hvalid]
  have hlow : s.phase ≠ .stream := by simp [hp]
  rw [hquiet, levelled_low hlow (h.dout_low hlow)]

/-- What PHASE does at an edge with rst = 0 keeps the invariant: one lemma a phase (R22). -/
theorem phaseEdge_inv {P : Params} {s : State} (h : s.Inv P) : ((phaseEdge P s.quiet).levelled P).Inv P := by
  unfold phaseEdge
  split
  · next hp => exact initEdge_inv h hp
  · next hp =>
    split
    · exact acceptEdge_inv h hp
    · exact idle_inv h hp
  · next hp => exact execEdge_inv h hp
  · next hp => exact streamEdge_inv h hp
  · next hp => exact gapEdge_inv h hp
  · next hp => rw [fault_stays h hp]; exact h

theorem clockEdge_inv {P : Params} {s : State} (h : s.Inv P) : (clockEdge P s).Inv P := by
  cases hr : s.port.rst with
  | true => rw [clockEdge_reset hr]; exact inReset_inv P s
  | false => rw [clockEdge_run hr]; exact phaseEdge_inv h

/-- Settles O32: with rst = 1 the edge resets; otherwise each phase's own edge keeps the invariant. -/
theorem everyClockEdgeKeepsTheInvariant : Obligations.EveryClockEdgeKeepsTheInvariant := fun _ _ => clockEdge_inv

/-! ## One step -/

/-- `perform_spec` for every word: an ILLEGAL one gives its response and nothing else (R67, R119). -/
theorem transact_spec (P : Params) (w : Word) (s : State) (hb : s.buf.wf = true) :
    ∃ m r es g f, m.wf = true ∧ respAllowed r = true ∧ (g = s.gapt ∨ g = P.gapCycles) ∧
      transact P w s = { s with
        buf := m, resp := r, respValid := true, responses := s.responses ++ [r],
        events := s.events ++ es, gapt := g, frames := f } := by
  unfold transact
  split
  · exact ⟨s.buf, _, [], s.gapt, s.frames, hb, respAllowed_responseWord .illegal, .inl rfl, by
      simp [doIllegal, State.refuse, State.respond]⟩
  · exact perform_spec P _ s hb

/-- A whole transaction on an IDLE block keeps the invariant: the streamer stays at rest and GAPT at its bound. -/
theorem transact_inv {P : Params} {s : State} (h : s.Inv P) (hp : s.phase = .idle) (w : Word) :
    (transact P w s).Inv P := by
  obtain ⟨hrest, hjob, hwait, hgapt⟩ := idle_atRest h hp
  obtain ⟨m, r, es, g, f, hm, hr, hg, ht⟩ := transact_spec P w s h.buf
  have hbound : g = P.gapCycles := hg.elim (fun hkept => hkept.trans hgapt) id
  rw [ht]
  refine ⟨hm, h.fifo, hr, h.dout, ?_⟩
  simp only [State.phaseInv, hp]
  exact ⟨hrest, hjob, hwait, hbound⟩

/-- Settles O33: a step is a transaction of a ready block or a clock edge. -/
theorem everyStepKeepsTheInvariant : Obligations.EveryStepKeepsTheInvariant := by
  intro s t hI h
  rcases step_next h with ⟨w, hw, rfl⟩ | ⟨-, rfl⟩
  · obtain ⟨hready, -⟩ := accepted?_eq_some.mp hw
    exact transact_inv hI ((cmdReady_iff s).mp hready).1 w
  · exact clockEdge_inv hI

/-! ## Runs of edges -/

/-- The invariant says nothing of the input ports. -/
theorem State.Inv.withPort {P : Params} {s : State} (h : s.Inv P) (i : PortIn) : State.Inv P { s with port := i } :=
  ⟨h.buf, h.fifo, h.resp, h.dout, h.phase⟩

/-- The invariant holds along every run of edges, resets included. -/
theorem cycles_inv {P : Params} {s : State} (h : s.Inv P) (ins : List PortIn) : (cycles P s ins).Inv P := by
  induction ins generalizing s with
  | nil => exact h
  | cons i is ih => exact ih (clockEdge_inv (h.withPort i))

/-- Settles O34: the invariant holds along the run, and it says so of IDLE. -/
theorem idleMeansLineQuietAndGapPassed : Obligations.IdleMeansLineQuietAndGapPassed := by
  intro P ins hp
  obtain ⟨⟨hfifo, hnbit, -, -, -, -, hdout⟩, -, -, hgapt⟩ := idle_atRest (cycles_inv (resetMeetsTheInvariant P) ins) hp
  exact ⟨hfifo, hnbit, hdout, hgapt⟩

/-! ## The line outside STREAM (R109) -/

/-- An edge from any state, the invariant or not, leaves the line low outside STREAM. -/
theorem clockEdge_dout_low {P : Params} {s : State} (hp : (clockEdge P s).phase ≠ .stream) :
    (clockEdge P s).dout = false := by
  cases hr : s.port.rst with
  | true => rw [clockEdge_reset hr]; rfl
  | false =>
    rw [clockEdge_run hr] at hp ⊢
    exact lineLevel_eq_false (s := phaseEdge P s.quiet) hp

/-- A step from a state whose line is low outside STREAM leaves one: a transaction moves neither PHASE nor `dout`. -/
theorem step_dout_low {s t : State} (hs : s.phase ≠ .stream → s.dout = false) (h : step s = .next t)
    (ht : t.phase ≠ .stream) : t.dout = false := by
  rcases step_next h with ⟨w, -, rfl⟩ | ⟨-, rfl⟩
  · obtain ⟨hphase, -, hdout, -⟩ := transact_control Config.params w s
    exact hdout.trans (hs (hphase ▸ ht))
  · exact clockEdge_dout_low ht

/-- Settles O35: an edge drives the line by `lineLevel`, the invariant ties it to that along a run, and a step is an edge or a
transaction. -/
theorem lineIsLowOutsideStream : Obligations.LineIsLowOutsideStream :=
  ⟨fun _ _ => clockEdge_dout_low, fun P ins => (cycles_inv (resetMeetsTheInvariant P) ins).dout_low,
    fun _ _ => step_dout_low⟩

end Sys2Proof.Machine
end

section
/-!
SUPPORT. The frame of every command: what its pseudocode may change, in the terms of Safety, and so what `exec` may change in
any state.
-/

namespace Sys2Proof

/-- R19's list of the commands that write BUF. -/
def Instr.writesBuf (i : Instr) : Prop :=
  i = .clear ∨ (∃ p g r b, i = .writePixel p g r b) ∨ (∃ d, i = .draw d) ∨ (∃ d, i = .render d)

/-- The commands that send a frame (R93, R97). -/
def Instr.sends (i : Instr) : Prop := i = .emit ∨ ∃ d, i = .render d

end Sys2Proof

namespace Sys2Proof.Machine

/-! ## The pseudocode of each command -/

theorem doWritePixel_frame (p : Nat) (g r b : Byte) (s : State) : sameButBufAndResponse s (doWritePixel p g r b s) := by
  unfold doWritePixel
  split <;> rfl

theorem doDraw_frame (P : Params) (d : Nat) (s : State) : sameButBufAndResponse s (doDraw P d s) := by
  unfold doDraw
  split <;> rfl

theorem doRender_frame (P : Params) (d : Nat) (s : State) : sameButBufAndOutput s (doRender P d s) := by
  unfold doRender
  split <;> rfl

theorem doMap_frame (i j : Nat) (s : State) : sameButResponse s (doMap i j s) := by
  unfold doMap
  split <;> rfl

/-! Which frame is the wider one. -/

theorem sameButResponse.toBufAndResponse {s t : State} (h : sameButResponse s t) : sameButBufAndResponse s t := by
  unfold sameButBufAndResponse
  rw [h]

theorem sameButResponse.toOutput {s t : State} (h : sameButResponse s t) : sameButOutput s t := by
  unfold sameButOutput
  rw [h]

theorem sameButBufAndResponse.toBufAndOutput {s t : State} (h : sameButBufAndResponse s t) :
    sameButBufAndOutput s t := by
  unfold sameButBufAndOutput
  rw [h]

theorem sameButOutput.toBufAndOutput {s t : State} (h : sameButOutput s t) : sameButBufAndOutput s t := by
  unfold sameButBufAndOutput
  rw [h]

/-! ## By what a command is for -/

/-- A command that does not send changes BUF and the response at most. -/
theorem perform_not_sends (P : Params) {i : Instr} (hi : ¬ i.sends) (s : State) :
    sameButBufAndResponse s (perform P i s) := by
  cases i with
  | clear => rfl
  | writePixel p g r b => exact doWritePixel_frame p g r b s
  | draw d => exact doDraw_frame P d s
  | emit => exact absurd (.inl rfl) hi
  | render d => exact absurd (.inr ⟨d, rfl⟩) hi
  | map i j => exact (doMap_frame i j s).toBufAndResponse

/-- A command outside R19's list leaves BUF alone. -/
theorem perform_not_writesBuf (P : Params) {i : Instr} (hi : ¬ i.writesBuf) (s : State) :
    sameButOutput s (perform P i s) := by
  cases i with
  | clear => exact absurd (.inl rfl) hi
  | writePixel p g r b => exact absurd (.inr (.inl ⟨p, g, r, b, rfl⟩)) hi
  | draw d => exact absurd (.inr (.inr (.inl ⟨d, rfl⟩))) hi
  | emit => rfl
  | render d => exact absurd (.inr (.inr (.inr ⟨d, rfl⟩))) hi
  | map i j => exact (doMap_frame i j s).toOutput

theorem perform_frame (P : Params) (i : Instr) (s : State) : sameButBufAndOutput s (perform P i s) := by
  by_cases hi : i.sends
  · rcases hi with rfl | ⟨d, rfl⟩
    · rfl
    · exact doRender_frame P d s
  · exact (perform_not_sends P hi s).toBufAndOutput

/-! ## `exec` in any state -/

/-- All that `exec` can answer as a next state: the pseudocode's state, or the same state when the block is not ready. -/
theorem exec_next {i : Instr} {s t : State} (h : exec i s = .next t) : t = perform Config.params i s ∨ t = s := by
  rw [exec_eq_accept] at h
  exact (accept_next h).imp And.right And.right

/-- Settles O21: the pseudocode keeps the frame, and a block that is not ready changes nothing. -/
theorem commandsLeaveTheStreamerAndPortsAlone : Obligations.CommandsLeaveTheStreamerAndPortsAlone := by
  intro i s t h
  rcases exec_next h with rfl | rfl
  · exact perform_frame Config.params i s
  · rfl

theorem exec_buf_eq {i : Instr} {s t : State} (h : exec i s = .next t) (hi : ¬ i.writesBuf) : t.buf = s.buf := by
  rcases exec_next h with rfl | rfl
  · rw [perform_not_writesBuf Config.params hi s]
  · rfl

theorem exec_silent {i : Instr} {s t : State} (h : exec i s = .next t) (hi : ¬ i.sends) :
    t.events = s.events ∧ t.gapt = s.gapt ∧ t.frames = s.frames := by
  rcases exec_next h with rfl | rfl
  · rw [perform_not_sends Config.params hi s]
    exact ⟨rfl, rfl, rfl⟩
  · exact ⟨rfl, rfl, rfl⟩

/-- Settles O22: a command outside R19's list leaves BUF alone, and one that does not send leaves the events, GAPT and the
count of frames alone. -/
theorem onlyFourCommandsWriteAndTwoSend : Obligations.OnlyFourCommandsWriteAndTwoSend := by
  intro i s t h
  refine ⟨not_imp_comm.mp (exec_buf_eq h), not_imp_comm.mp fun hi => (exec_silent h hi).1, fun hmoved => ?_⟩
  by_contra hi
  obtain ⟨-, hgapt, hframes⟩ := exec_silent h hi
  exact hmoved.elim (absurd hgapt) (absurd hframes)

end Sys2Proof.Machine
end

section
/-!
SUPPORT. The output ports against PHASE (R23, R70), the table of reset values (R35), and the edge at which a command is
accepted (R22, R70).
-/

namespace Sys2Proof.Machine

/-! ## The output ports -/

theorem busy_iff (s : State) :
    s.busy = true ↔ s.phase = .init ∨ s.phase = .exec ∨ s.phase = .stream ∨ s.phase = .gap := by
  unfold State.busy
  cases s.phase <;> decide

theorem faultFlag_iff (s : State) : s.faultFlag = true ↔ s.phase = .fault := decide_eq_true_iff

/-- With rst = 0 the outputs are the registers' own levels. -/
theorem out_run {s : State} (h : s.port.rst = false) :
    s.out = ⟨s.cmdReady, s.respValid, s.resp, s.busy, s.faultFlag, s.dout⟩ := by
  simp [State.out, h]

/-- Settles O9: each output is a reading of PHASE. -/
theorem busyAndFaultFollowPhase : Obligations.BusyAndFaultFollowPhase := by
  intro s h
  rw [out_run h]
  exact ⟨busy_iff s, faultFlag_iff s, by simp [cmdReady_iff, h]⟩

/-- Settles O5: the values of `State.reset` are the table's, read off one by one. -/
theorem resetLeavesTheTableOfValues : Obligations.ResetLeavesTheTableOfValues :=
  ⟨fun _ _ => rfl, rfl, rfl, rfl, rfl, rfl, rfl, rfl, rfl, rfl, rfl, rfl, rfl⟩

/-! ## The acceptance edge -/

/-- The acceptance edge samples the word and gives nothing out yet, whatever the word is (R70; log entry 21). -/
theorem acceptEdge_keeps (P : Params) (s : State) :
    (acceptEdge P s).job = some s.port.cmd ∧ (acceptEdge P s).buf = s.buf ∧ (acceptEdge P s).events = s.events ∧
      (acceptEdge P s).responses = s.responses ∧ (acceptEdge P s).respValid = s.respValid := by
  unfold acceptEdge
  split <;> exact ⟨rfl, rfl, rfl, rfl, rfl⟩

/-- EMIT streams at once, from the first byte (R99). -/
theorem acceptEdge_emit (P : Params) {s : State} (h : jobOf s.port.cmd = .emit) :
    (acceptEdge P s).phase = .stream ∧ (acceptEdge P s).cur = some Cursor.start := by
  simp [acceptEdge, h]

/-- Everything else goes to EXEC (R22). -/
theorem acceptEdge_not_emit (P : Params) {s : State} (h : jobOf s.port.cmd ≠ .emit) :
    (acceptEdge P s).phase = .exec := by
  unfold acceptEdge
  split
  · rfl
  · next he => exact absurd he h
  · rfl

theorem acceptEdge_not_idle (P : Params) (s : State) : (acceptEdge P s).phase ≠ .idle := by
  by_cases h : jobOf s.port.cmd = .emit
  · simp [(acceptEdge_emit P h).1]
  · simp [acceptEdge_not_emit P h]

theorem cmdReady_eq_false {s : State} (h : s.phase ≠ .idle) : s.cmdReady = false := by
  simp [State.cmdReady, h]

/-- Settles O36: the edge is `acceptEdge` with RESP_VALID fallen, and the line's level is all that is set besides. -/
theorem acceptanceLeavesIdle : Obligations.AcceptanceLeavesIdle := by
  intro P s hr hv
  rw [clockEdge_accepts hr hv]
  obtain ⟨hjob, hbuf, hevents, hresponses, hvalid⟩ := acceptEdge_keeps P s.quiet
  exact ⟨hjob, hbuf, hevents, hresponses, hvalid, cmdReady_eq_false (acceptEdge_not_idle P s.quiet),
    fun hd => acceptEdge_emit P (s := s.quiet) (jobOf_emit.mpr hd),
    fun hd => acceptEdge_not_emit P (s := s.quiet) (mt jobOf_emit.mp hd)⟩

end Sys2Proof.Machine
end

section
/-!
SUPPORT. The two storage spaces (20_memory.md): the byte order of a pixel word and of a ROM word (R42 to R44), and what a
command leaves when it is given twice (R49).
-/

namespace Sys2Proof.Machine

/-! ## The two byte spaces -/

/-- Settles O29: `chanAddr` is the byte order of the statement, and the pixel word is the three bytes from its first on. -/
theorem pixelWordIsGreenRedBlue : Obligations.PixelWordIsGreenRedBlue := fun _ _ => ⟨rfl, rfl, rfl, rfl⟩

/-- The 24-bit word of a cell: its three bytes, red most significant (R44). -/
theorem romRead3_cell (P : Params) (d : Fin nGlyphs) (i : Fin nRows) (j : Fin nCols) :
    romRead3 P (cellAddr d i j) = some ((P.glyph d i j).R ++ (P.glyph d i j).G ++ (P.glyph d i j).B) := by
  have red : romRead P (cellAddr d i j) = some (P.glyph d i j).R := romRead_cell P d i j 0 (by decide)
  have green : romRead P (cellAddr d i j + 1) = some (P.glyph d i j).G := romRead_cell P d i j 1 (by decide)
  have blue : romRead P (cellAddr d i j + 2) = some (P.glyph d i j).B := romRead_cell P d i j 2 (by decide)
  simp [romRead3, red, green, blue]

/-- A 3-byte read leaves the ROM space exactly when its last byte does (R43, R44). -/
theorem romRead3_eq_none (P : Params) (a : Nat) : romRead3 P a = none ↔ romBytes ≤ a + 2 := by
  have bytes : romRead3 P a = none ↔ romRead P a = none ∨ romRead P (a + 1) = none ∨ romRead P (a + 2) = none := by
    unfold romRead3
    cases romRead P a <;> cases romRead P (a + 1) <;> cases romRead P (a + 2) <;> simp
  simp only [bytes, romRead_eq_none]
  omega

/-- The pixel read from a cell's word has the cell's channels by name (R44). -/
theorem romRead3_cell_toPixel (P : Params) (d : Fin nGlyphs) (i : Fin nRows) (j : Fin nCols) :
    (romRead3 P (cellAddr d i j)).map (fun w => Cell.toPixel (Cell.ofWord w)) = some (Cell.toPixel (P.glyph d i j)) := by
  rw [romRead3_cell, Option.map_some, cell_ofWord]

/-- Settles O30: the address of the statement is `cellAddr`, and a 3-byte read leaves the space with its last byte. -/
theorem romHoldsTheCellsRowMajorRedFirst : Obligations.RomHoldsTheCellsRowMajorRedFirst := fun P =>
  ⟨fun d i j =>
      ⟨romRead_cell P d i j 0 (by decide), romRead_cell P d i j 1 (by decide), romRead_cell P d i j 2 (by decide),
        romRead3_cell P d i j, romRead3_cell_toPixel P d i j⟩,
    romRead_eq_none P,
    fun a => (romRead3_eq_none P a).trans (show 750 ≤ a + 2 ↔ 748 ≤ a by omega)⟩

/-! ## A command given twice -/

/-- Writing the same pixel twice is writing it once. -/
theorem Memory.setPixel_setPixel_same {m : Memory} (hm : m.wf = true) {k : Nat} (hk : k < nPix) (x : Pixel) :
    (m.setPixel k x).setPixel k x = m.setPixel k x :=
  have hw := Memory.wf_setPixel m k x hm hk
  Memory.ext_of_pixels (Memory.wf_setPixel _ k x hw hk) hw fun l _ => by
    simp only [Memory.pixel_setPixel]
    split <;> rfl

/-- The response depends on the command alone: no range check reads the state (R120). -/
theorem perform_resp_eq (P : Params) (i : Instr) (s t : State) : (perform P i s).resp = (perform P i t).resp := by
  cases i with
  | clear => rfl
  | emit => rfl
  | writePixel p g r b => simp only [perform, doWritePixel]; split <;> rfl
  | draw d => simp only [perform, doDraw]; split <;> rfl
  | render d => simp only [perform, doRender]; split <;> rfl
  | map i j => simp only [perform, doMap]; split <;> rfl

/-- BUF after a command is BUF after the same command twice (R49). -/
theorem perform_perform_buf (P : Params) (i : Instr) {s : State} (hb : s.buf.wf = true) :
    (perform P i (perform P i s)).buf = (perform P i s).buf := by
  cases i with
  | clear => rfl
  | emit => rfl
  | writePixel p g r b =>
    simp only [perform, doWritePixel]
    split
    · next hp => exact Memory.setPixel_setPixel_same hb (pixelInRange_iff.mp hp) ⟨g, r, b⟩
    · rfl
  | draw d =>
    simp only [perform, doDraw]
    split
    · rfl
    · next e _ => exact Memory.draw_eq_draw _ _ (P.glyph e) (Memory.wf_draw _ _ hb) hb
  | render d => simp only [perform, doRender]; split <;> rfl
  | map i j => simp only [perform, doMap]; split <;> rfl

/-- RENDER of a digit sends that digit's frame, whatever BUF held, and leaves BUF zero (R93, R94). -/
theorem perform_render (P : Params) (d : Fin nGlyphs) (s : State) :
    (perform P (.render d.val) s).buf = Memory.zero ∧
      (perform P (.render d.val) s).events = s.events ++ frameEvents (Memory.zero.draw (P.glyph d)) := by
  have hd : digit? d.val = some d := digit?_eq_some.mpr rfl
  simp [perform, doRender, hd]

/-- A command leaves PHASE and the ports alone, so it leaves the block as ready as it was. -/
theorem perform_cmdReady (P : Params) (i : Instr) (s : State) : (perform P i s).cmdReady = s.cmdReady := by
  rw [perform_frame P i s]
  rfl

/-- A ready block carries a command out twice. -/
theorem exec_exec {s : State} (h : s.cmdReady = true) (i : Instr) :
    exec i s = .next (perform Config.params i s) ∧
      exec i (perform Config.params i s) = .next (perform Config.params i (perform Config.params i s)) :=
  ⟨exec_ready h i, exec_ready ((perform_cmdReady _ i s).trans h) i⟩

/-- Settles O25: every command leaves the same BUF and response when repeated; EMIT sends the same frame again because
BUF is unchanged, RENDER because it draws on a clear BUF. -/
theorem repeatingACommandLeavesTheSameBuffer : Obligations.RepeatingACommandLeavesTheSameBuffer := by
  intro s hr hb
  refine ⟨fun i _ _ => ?_, ?_, fun d hd => ?_⟩
  · obtain ⟨once, twice⟩ := exec_exec hr i
    exact ⟨_, _, once, twice, perform_perform_buf _ i hb, perform_resp_eq _ i _ _⟩
  · obtain ⟨once, twice⟩ := exec_exec hr .emit
    exact ⟨_, _, frameEvents s.buf, once, twice, rfl, rfl, frameEvents_length _, rfl, rfl⟩
  · obtain ⟨e, rfl⟩ : ∃ e : Fin nGlyphs, e.val = d := ⟨⟨d, Nat.lt_succ_of_le hd⟩, rfl⟩
    obtain ⟨once, twice⟩ := exec_exec hr (.render e.val)
    obtain ⟨buf₁, events₁⟩ := perform_render Config.params e s
    obtain ⟨buf₂, events₂⟩ := perform_render Config.params e (perform Config.params (.render e.val) s)
    exact ⟨_, _, _, once, twice, buf₁, buf₂, frameEvents_length _, events₁, events₂⟩

end Sys2Proof.Machine
end

section
/-!
SUPPORT. The encoding (30_encoding.md): the fields of an encoded word, the word that given fields make, and so that decoder
and encoder are inverse to each other.
-/

namespace Sys2Proof

/-! ## A format is its fields, one after another

The formats' own definitions give the type as a word of 32 bits; the library's laws of `++` speak of sums of widths. -/

theorem formatZ_eq_append (op : BitVec 3) : formatZ op = (op ++ 0#29 : BitVec (3 + 29)) := rfl

theorem formatP_eq_append (op : BitVec 3) (p : Nat) (g r b : BitVec 8) :
    formatP op p g r b = (op ++ BitVec.ofNat 5 p ++ g ++ r ++ b : BitVec (3 + 5 + 8 + 8 + 8)) := rfl

theorem formatD_eq_append (op : BitVec 3) (d : Nat) :
    formatD op d = (op ++ 0#25 ++ BitVec.ofNat 4 d : BitVec (3 + 25 + 4)) := rfl

theorem formatC_eq_append (op : BitVec 3) (i j : Nat) :
    formatC op i j = (op ++ 0#21 ++ BitVec.ofNat 4 i ++ BitVec.ofNat 4 j : BitVec (3 + 21 + 4 + 4)) := rfl

/-! ## The fields of each format (R62 to R65) -/

section
variable (op : BitVec 3)

theorem formatZ_fields : opcode (formatZ op) = op ∧ (formatZ op).extractLsb' 0 29 = 0#29 :=
  ⟨BitVec.extractLsb'_append_eq_left, BitVec.extractLsb'_append_eq_right⟩

theorem formatP_fields (p : Nat) (g r b : BitVec 8) :
    opcode (formatP op p g r b) = op ∧ (formatP op p g r b).extractLsb' 24 5 = BitVec.ofNat 5 p ∧
      (formatP op p g r b).extractLsb' 16 8 = g ∧ (formatP op p g r b).extractLsb' 8 8 = r ∧
      (formatP op p g r b).extractLsb' 0 8 = b := by
  simp (disch := omega) only [opcode, formatP_eq_append, BitVec.extractLsb'_append_eq_of_le,
    BitVec.extractLsb'_append_eq_of_add_le, BitVec.extractLsb'_eq_self, Nat.reduceSub, and_self]

theorem formatD_fields (d : Nat) :
    opcode (formatD op d) = op ∧ (formatD op d).extractLsb' 4 25 = 0#25 ∧
      (formatD op d).extractLsb' 0 4 = BitVec.ofNat 4 d := by
  simp (disch := omega) only [opcode, formatD_eq_append, BitVec.extractLsb'_append_eq_of_le,
    BitVec.extractLsb'_append_eq_of_add_le, BitVec.extractLsb'_eq_self, Nat.reduceSub, and_self]

theorem formatC_fields (i j : Nat) :
    opcode (formatC op i j) = op ∧ (formatC op i j).extractLsb' 8 21 = 0#21 ∧
      (formatC op i j).extractLsb' 4 4 = BitVec.ofNat 4 i ∧ (formatC op i j).extractLsb' 0 4 = BitVec.ofNat 4 j := by
  simp (disch := omega) only [opcode, formatC_eq_append, BitVec.extractLsb'_append_eq_of_le,
    BitVec.extractLsb'_append_eq_of_add_le, BitVec.extractLsb'_eq_self, Nat.reduceSub, and_self]

end

/-! ## The word that a word's own fields make -/

section
variable {op : BitVec 3} {w : Word} (hop : opcode w = op)
include hop

theorem formatZ_of_fields (hz : w.extractLsb' 0 29 = 0#29) : formatZ op = w := by
  simp only [formatZ_eq_append, ← hop, ← hz, opcode, BitVec.extractLsb'_append_extractLsb'_eq_extractLsb',
    BitVec.extractLsb'_eq_self]

theorem formatP_of_fields :
    formatP op (w.extractLsb' 24 5).toNat (w.extractLsb' 16 8) (w.extractLsb' 8 8) (w.extractLsb' 0 8) = w := by
  simp only [formatP_eq_append, ← hop, opcode, BitVec.ofNat_toNat, BitVec.setWidth_eq,
    BitVec.extractLsb'_append_extractLsb'_eq_extractLsb', BitVec.extractLsb'_eq_self]

theorem formatD_of_fields (hz : w.extractLsb' 4 25 = 0#25) : formatD op (w.extractLsb' 0 4).toNat = w := by
  simp only [formatD_eq_append, ← hop, ← hz, opcode, BitVec.ofNat_toNat, BitVec.setWidth_eq,
    BitVec.extractLsb'_append_extractLsb'_eq_extractLsb', BitVec.extractLsb'_eq_self]

theorem formatC_of_fields (hz : w.extractLsb' 8 21 = 0#21) :
    formatC op (w.extractLsb' 4 4).toNat (w.extractLsb' 0 4).toNat = w := by
  simp only [formatC_eq_append, ← hop, ← hz, opcode, BitVec.ofNat_toNat, BitVec.setWidth_eq,
    BitVec.extractLsb'_append_extractLsb'_eq_extractLsb', BitVec.extractLsb'_eq_self]

end

/-! ## Decoder and encoder -/

/-- Settles O2: the decoder reads each field of the encoded word at its place, the opcode first and the reserved bits zero,
and an operand that fits its field is the number the field holds. -/
theorem decodeOfEncodeIsTheCommand : Obligations.DecodeOfEncodeIsTheCommand := by
  intro i hi
  cases i with
  | clear =>
    obtain ⟨hop, hz⟩ := formatZ_fields 0b001#3
    simp [encode, decode, hop, hz]
  | writePixel p g r b =>
    obtain ⟨hop, hp, hg, hr, hb⟩ := formatP_fields 0b010#3 p g r b
    have hfits : p < 32 := of_decide_eq_true hi
    simp [encode, decode, hop, hp, hg, hr, hb, Nat.mod_eq_of_lt hfits]
  | draw d =>
    obtain ⟨hop, hz, hd⟩ := formatD_fields 0b011#3 d
    have hfits : d < 16 := of_decide_eq_true hi
    simp [encode, decode, hop, hz, hd, Nat.mod_eq_of_lt hfits]
  | emit =>
    obtain ⟨hop, hz⟩ := formatZ_fields 0b100#3
    simp [encode, decode, hop, hz]
  | render d =>
    obtain ⟨hop, hz, hd⟩ := formatD_fields 0b101#3 d
    have hfits : d < 16 := of_decide_eq_true hi
    simp [encode, decode, hop, hz, hd, Nat.mod_eq_of_lt hfits]
  | map i j =>
    obtain ⟨hop, hz, hrow, hcol⟩ := formatC_fields 0b110#3 i j
    obtain ⟨hi, hj⟩ : i < 16 ∧ j < 16 := by simpa [Instr.wf] using hi
    simp [encode, decode, hop, hz, hrow, hcol, Nat.mod_eq_of_lt hi, Nat.mod_eq_of_lt hj]

/-- Settles O3: each branch of the decoder has read every field of its format, the reserved bits as zero, so the same fields
make the word again; and a number read from a field fits it. -/
theorem encodeOfDecodeIsTheWord : Obligations.EncodeOfDecodeIsTheWord := by
  intro w i h
  unfold decode at h
  split at h
  · next hop =>
    split at h <;> cases h
    next hz => exact ⟨rfl, formatZ_of_fields hop hz⟩
  split at h
  · next hop =>
    cases h
    exact ⟨decide_eq_true (BitVec.isLt _), formatP_of_fields hop⟩
  split at h
  · next hop =>
    split at h <;> cases h
    next hz => exact ⟨decide_eq_true (BitVec.isLt _), formatD_of_fields hop hz⟩
  split at h
  · next hop =>
    split at h <;> cases h
    next hz => exact ⟨rfl, formatZ_of_fields hop hz⟩
  split at h
  · next hop =>
    split at h <;> cases h
    next hz => exact ⟨decide_eq_true (BitVec.isLt _), formatD_of_fields hop hz⟩
  split at h
  · next hop =>
    split at h <;> cases h
    next hz => exact ⟨by simp [Instr.wf, Nat.mod_lt], formatC_of_fields hop hz⟩
  · cases h

/-- Settles O1: the decoder is evaluated at each of the nine words. -/
theorem decodesWordsWrittenFromTheFormats : Obligations.DecodesWordsWrittenFromTheFormats := by
  unfold Obligations.DecodesWordsWrittenFromTheFormats
  decide

end Sys2Proof
end

section
/-!
SUPPORT. The answer to a command (30_encoding.md section 3): one allowed response at the transaction level, the step of a
ready block with and without a command, and the cycles a short command takes at the port and wire level.
-/

namespace Sys2Proof.Machine

/-! ## One response to every command (R68, R69, R71) -/

/-- The pseudocode of every command ends in one response of R68 and R69, whatever state it is given. -/
theorem perform_responds (P : Params) (i : Instr) (s : State) :
    ∃ r, respAllowed r = true ∧ responded s (perform P i s) r := by
  cases i with
  | clear => exact ⟨_, respAllowed_responseWord .ok, rfl, rfl, rfl⟩
  | writePixel p g r b =>
    simp only [perform, doWritePixel]
    split
    · exact ⟨_, respAllowed_responseWord .ok, rfl, rfl, rfl⟩
    · exact ⟨_, respAllowed_responseWord .outOfRange, rfl, rfl, rfl⟩
  | draw d =>
    simp only [perform, doDraw]
    split
    · exact ⟨_, respAllowed_responseWord .outOfRange, rfl, rfl, rfl⟩
    · exact ⟨_, respAllowed_responseWord .ok, rfl, rfl, rfl⟩
  | emit => exact ⟨_, respAllowed_responseWord .ok, rfl, rfl, rfl⟩
  | render d =>
    simp only [perform, doRender]
    split
    · exact ⟨_, respAllowed_responseWord .outOfRange, rfl, rfl, rfl⟩
    · exact ⟨_, respAllowed_responseWord .ok, rfl, rfl, rfl⟩
  | map i j =>
    simp only [perform, doMap]
    split
    · next hc => exact ⟨_, respAllowed_map (phys_lt_of_coord hc), rfl, rfl, rfl⟩
    · exact ⟨_, respAllowed_responseWord .outOfRange, rfl, rfl, rfl⟩

/-- Settles O23: a ready block runs the command's pseudocode, which responds once and leaves the block ready. -/
theorem everyCommandGetsOneAllowedResponse : Obligations.EveryCommandGetsOneAllowedResponse := by
  intro i s hr
  obtain ⟨r, hallowed, hresponded⟩ := perform_responds Config.params i s
  obtain rfl := hresponded.1
  have hready := (perform_cmdReady Config.params i s).trans hr
  exact ⟨_, exec_ready hr i, hresponded, hallowed, ((cmdReady_iff _).mp hready).1, hready⟩

/-! ## The step of a ready block (R70, R73) -/

theorem transact_decoded {P : Params} {w : Word} {i : Instr} (h : decode w = .ok i) (s : State) :
    transact P w s = perform P i s := by
  simp [transact, h]

theorem step_decoded {s : State} {w : Word} {i : Instr} (ha : accepted? s = some w) (h : decode w = .ok i) :
    step s = exec i s := by
  rw [step_accepted ha, transact_decoded h, exec_ready (accepted?_eq_some.mp ha).1]

/-- What the decoder reads from a table word is what it reads from the word at the port. -/
theorem decode_of_decodeTableWord {w : Nat} {i : Instr} (h : decodeTableWord 32 w = some i) :
    decode (BitVec.ofNat 32 (w % 2 ^ 32)) = .ok i := by
  unfold decodeTableWord at h
  rw [if_pos (Nat.mod_lt _ (by decide))] at h
  cases hd : decode (BitVec.ofNat 32 (w % 2 ^ 32)) with
  | ok j => rw [hd] at h; cases h; rfl
  | error e => rw [hd] at h; cases h

theorem accepted?_withFetchWord (s : State) (w : Nat) :
    accepted? (s.withFetchWord 32 w) = some (BitVec.ofNat 32 (w % 2 ^ 32)) :=
  accepted?_present (s := s.afterInit Config.params) rfl _

/-- Settles O26: a step that accepts a word is its transaction, which is the decoded command's pseudocode, as `exec` is on a
ready block; the presented table word is such a word. -/
theorem stepRunsTheAcceptedCommand : Obligations.StepRunsTheAcceptedCommand := by
  refine ⟨fun s i hr hv h => step_decoded (accepted?_eq_some.mpr ⟨hr, hv, rfl⟩) h, fun s w i h => ?_⟩
  have ha := accepted?_withFetchWord s w
  exact ⟨step_decoded ha (decode_of_decodeTableWord h), (accepted?_eq_some.mp ha).1⟩

/-- Settles O27: nothing is accepted, so the step is a clock edge, and the edge of an IDLE block moves no register but
RESP_VALID and the line. -/
theorem idleBlockWithoutACommandWaits : Obligations.IdleBlockWithoutACommandWaits := by
  intro s hr hv
  obtain ⟨hp, hrst⟩ := (cmdReady_iff s).mp hr
  have hnone : accepted? s = none := accepted?_eq_none.mpr (.inr hv)
  have hstays : phaseEdge Config.params s.quiet = s.quiet := by simp [phaseEdge, State.quiet, hp, hv]
  have hlow : lineLevel Config.params s.quiet = false := lineLevel_eq_false (by simp [State.quiet, hp])
  rw [step_tick hnone, tick_next (by simp [hp]), clockEdge_run hrst, hstays, State.levelled, hlow]
  rfl

/-- Settles O37: acceptance starts L_CMD cycles of EXEC, and the last of them leaves the transaction's state. -/
theorem shortCommandsRespondAfterLCmdCycles : Obligations.ShortCommandsRespondAfterLCmdCycles := by
  intro P s ins hI hr hv hw h
  refine ⟨fun hn => ?_, (carriesOut_short hI hr hv hw h).2⟩
  rw [clockEdge_accepts_short hr hv hI hw]
  exact running_exec_phase hI ((cmdReady_iff s).mp hr).1 h hn

end Sys2Proof.Machine
end

section
/-!
SUPPORT. Only an IDLE block reads `cmd_valid` and `cmd` (R70, R140): every other phase does the same at an edge whatever the
input ports are, so that other levels there change the port alone.
-/

namespace Sys2Proof.Machine

/-! ## The phases one by one -/

section
variable (P : Params) (s : State) (p : PortIn)

theorem initEdge_port : initEdge P { s with port := p } = { initEdge P s with port := p } := by
  unfold initEdge
  by_cases hc : P.channelOk = false
  · simp [hc]
  · by_cases h : s.gapt + 1 < P.gapCycles <;> simp [hc, h]

theorem completeExec_port (w : Word) :
    completeExec P w { s with port := p } = { completeExec P w s with port := p } := by
  unfold completeExec
  rw [transact_port]
  split <;> rfl

theorem execEdge_port : execEdge P { s with port := p } = { execEdge P s with port := p } := by
  by_cases hw : s.wait ≤ 1
  · simp only [execEdge, hw, if_true]
    split
    · exact completeExec_port P s p _
    · rfl
  · simp [execEdge, hw]

theorem endByte_port : State.endByte { s with port := p } = { s.endByte with port := p } := by
  unfold State.endByte
  cases s.fifo with
  | cons v rest => rfl
  | nil => cases s.cur <;> rfl

theorem endBit_port : State.endBit { s with port := p } = { s.endBit with port := p } := by
  by_cases hn : s.nbit - 1 = 0
  · simp only [State.endBit, hn, if_true]
    exact endByte_port { s with shift := s.shift <<< 1, nbit := 0, bitT := 0 } p
  · simp [State.endBit, hn]

theorem serializerEdge_port : serializerEdge P { s with port := p } = { serializerEdge P s with port := p } := by
  by_cases hn : s.nbit = 0
  · cases hf : s.fifo <;> simp [serializerEdge, hn, hf, State.load]
  · by_cases ht : s.bitT + 1 < P.tBit
    · simp [serializerEdge, hn, ht]
    · simp [serializerEdge, hn, ht, endBit_port]

theorem streamEdge_port : streamEdge P { s with port := p } = { streamEdge P s with port := p } := by
  by_cases hw : s.wait = 0
  · obtain hc | ⟨x, hc⟩ := Option.eq_none_or_eq_some s.cur
    · rw [streamEdge_done hw hc, streamEdge_done (s := { s with port := p }) hw hc]
      exact serializerEdge_port P s p
    · by_cases hroom : s.fifo.length < P.fifoDepth
      · rw [streamEdge_send hw hc hroom, streamEdge_send (s := { s with port := p }) hw hc hroom, serializerEdge_port]
        rfl
      · rw [streamEdge_full hw hc hroom, streamEdge_full (s := { s with port := p }) hw hc hroom]
        exact serializerEdge_port P s p
  · simp [streamEdge, Nat.pos_of_ne_zero hw]

theorem finishFrame_port : finishFrame { s with port := p } = { finishFrame s with port := p } := by
  unfold finishFrame
  simp only
  split <;> rfl

theorem gapEdge_port : gapEdge P { s with port := p } = { gapEdge P s with port := p } := by
  by_cases hg : s.gapt + 1 < P.gapCycles
  · simp [gapEdge, hg]
  · simp only [gapEdge, hg, if_false]
    exact finishFrame_port { s with gapt := P.gapCycles } p

variable {s}

/-- Without an acceptance no phase looks at the ports. -/
theorem phaseEdge_port (hp : s.phase ≠ .idle) :
    phaseEdge P { s with port := p } = { phaseEdge P s with port := p } := by
  unfold phaseEdge
  simp only
  split
  · exact initEdge_port P s p
  · next h => exact absurd h hp
  · exact execEdge_port P s p
  · exact streamEdge_port P s p
  · exact gapEdge_port P s p
  · rfl

/-- At an edge the input ports of a block that is not IDLE act by rst alone. -/
theorem clockEdge_port (hp : s.phase ≠ .idle) (hr : p.rst = s.port.rst) :
    clockEdge P { s with port := p } = { clockEdge P s with port := p } := by
  cases h : s.port.rst with
  | true => rw [clockEdge_reset h, clockEdge_reset (hr.trans h)]; rfl
  | false =>
    rw [clockEdge_run h, clockEdge_run (hr.trans h)]
    exact congrArg (State.levelled P) (phaseEdge_port P p (s := s.quiet) hp)

end

/-- Settles O28: such an edge depends on the ports by rst alone, and a command handed to such a block is not accepted. -/
theorem busyBlockIgnoresTheCommandPort : Obligations.BusyBlockIgnoresTheCommandPort := by
  refine ⟨fun P s v w hp => clockEdge_port P _ hp rfl, fun s i hp hf => ?_⟩
  rw [exec_eq_accept]
  exact accept_busy (cmdReady_eq_false hp) (fun h => hf h.1) _

end Sys2Proof.Machine
end

section
/-!
SUPPORT. The assembler (30_encoding.md section 5): what one command assembles to, and that every word of a line but `.word` is
the word of a command.
-/

namespace Sys2Proof.Machine

/-! ## Lists of results -/

/-- When every call succeeds, so does the list of them. -/
theorem mapM_eq_ok {ε α β : Type} {f : α → Except ε β} {g : α → β} {l : List α} (h : ∀ a ∈ l, f a = .ok (g a)) :
    l.mapM f = .ok (l.map g) := by
  induction l with
  | nil => rfl
  | cons a l ih =>
    obtain ⟨ha, hl⟩ := List.forall_mem_cons.mp h
    rw [List.mapM_cons, ha, ih hl]
    rfl

/-- Every result in the list is the result of one call. -/
theorem exists_of_mem_mapM {ε α β : Type} {f : α → Except ε β} {l : List α} {bs : List β} {b : β}
    (h : l.mapM f = .ok bs) (hb : b ∈ bs) : ∃ a ∈ l, f a = .ok b := by
  induction l generalizing bs with
  | nil => cases h; cases hb
  | cons a l ih =>
    rw [List.mapM_cons] at h
    cases ha : f a with
    | error e => rw [ha] at h; cases h
    | ok c =>
      cases hl : l.mapM f with
      | error e => rw [ha, hl] at h; cases h
      | ok cs =>
        rw [ha, hl] at h
        obtain rfl : c :: cs = bs := Except.ok.inj h
        rcases List.mem_cons.mp hb with rfl | hb
        · exact ⟨a, List.mem_cons_self, ha⟩
        · obtain ⟨a', ha', hf⟩ := ih hl hb
          exact ⟨a', List.mem_cons_of_mem _ ha', hf⟩

/-! ## One command -/

theorem assembleInstr_wf {i : Instr} (h : i.wf = true) : assembleInstr i = .ok (encode i) := if_pos h

theorem assembleInstr_tooLarge {i : Instr} (h : i.wf = false) : assembleInstr i = .error .operandTooLarge := by
  simp [assembleInstr, h]

theorem decode_of_assembleInstr {i : Instr} {w : Word} (h : assembleInstr i = .ok w) : decode w = .ok i := by
  unfold assembleInstr at h
  split at h
  · next hi => cases h; exact decodeOfEncodeIsTheCommand i hi
  · cases h

theorem channelOperand_eq (v : Nat) :
    channelOperand v = if v < 256 then .ok (BitVec.ofNat 8 v) else .error .operandTooLarge := rfl

theorem assemblePixel_fits {p g r b : Nat} (hp : p < 32) (hg : g < 256) (hr : r < 256) (hb : b < 256) :
    assemblePixel p g r b =
      .ok (encode (.writePixel p (BitVec.ofNat 8 g) (BitVec.ofNat 8 r) (BitVec.ofNat 8 b))) := by
  rw [assemblePixel, channelOperand_eq, channelOperand_eq, channelOperand_eq, if_pos hg, if_pos hr, if_pos hb]
  exact assembleInstr_wf (decide_eq_true hp)

theorem assemblePixel_tooLarge {p g r b : Nat} (h : 32 ≤ p ∨ 256 ≤ g ∨ 256 ≤ r ∨ 256 ≤ b) :
    assemblePixel p g r b = .error .operandTooLarge := by
  rw [assemblePixel, channelOperand_eq, channelOperand_eq, channelOperand_eq]
  split
  · split
    · split
      · exact assembleInstr_tooLarge (decide_eq_false (by omega))
      · rfl
    · rfl
  · rfl

theorem decode_of_assemblePixel {p g r b : Nat} {w : Word} (h : assemblePixel p g r b = .ok w) :
    ∃ i, decode w = .ok i := by
  by_cases hbig : 32 ≤ p ∨ 256 ≤ g ∨ 256 ≤ r ∨ 256 ≤ b
  · rw [assemblePixel_tooLarge hbig] at h; cases h
  · simp only [not_or, not_le] at hbig
    obtain ⟨hp, hg, hr, hb⟩ := hbig
    rw [assemblePixel_fits hp hg hr hb] at h
    cases h
    exact ⟨_, decodeOfEncodeIsTheCommand _ (decide_eq_true hp)⟩

/-! ## Lines -/

/-- A line of one command has one word, that command's. -/
theorem words_of_singleton {x : Except AsmError Word} {ws : List Word} (h : (do return [← x]) = Except.ok ws) :
    ∃ w, x = .ok w ∧ ws = [w] := by
  cases x with
  | ok w => cases h; exact ⟨w, rfl, rfl⟩
  | error e => cases h

theorem line_instr_tooLarge {i : Instr} (h : i.wf = false) :
    (do return [← assembleInstr i] : Except AsmError (List Word)) = .error .operandTooLarge := by
  rw [assembleInstr_tooLarge h]
  rfl

theorem decode_of_line_instr {i : Instr} {ws : List Word} (h : (do return [← assembleInstr i]) = Except.ok ws) :
    ∀ w ∈ ws, ∃ c, decode w = .ok c := by
  obtain ⟨w, hw, rfl⟩ := words_of_singleton h
  exact List.forall_mem_singleton.mpr ⟨i, decode_of_assembleInstr hw⟩

theorem decode_of_line_pixel {p g r b : Nat} {ws : List Word}
    (h : (do return [← assemblePixel p g r b]) = Except.ok ws) :
    ∀ w ∈ ws, ∃ c, decode w = .ok c := by
  obtain ⟨w, hw, rfl⟩ := words_of_singleton h
  exact List.forall_mem_singleton.mpr (decode_of_assemblePixel hw)

/-- Settles O46: PLOT asks `coordInRange` and is then WRITE_PIXEL's line; each of FILL's 25 pixels fits its fields. -/
theorem pseudoInstructionsExpandToCommands : Obligations.PseudoInstructionsExpandToCommands := by
  refine ⟨rfl, fun i j g r b hi hj => ?_, fun i j g r b hout => ?_, fun g r b hg hr hb => ?_⟩
  · exact if_pos (coordInRange_iff.mpr ⟨Nat.lt_succ_of_le hi, Nat.lt_succ_of_le hj⟩)
  · refine if_neg fun hin => ?_
    obtain ⟨hi, hj⟩ : i < 5 ∧ j < 5 := coordInRange_iff.mp hin
    omega
  · refine mapM_eq_ok fun k hk => ?_
    have hk : k < 25 := List.mem_range.mp hk
    exact assemblePixel_fits (by omega) hg hr hb

/-- Every word of a line, but for `.word`, was assembled from one command (R74, R75). -/
theorem decode_of_assembleLine {l : AsmLine} {ws : List Word} (hl : ∀ w, l ≠ .word w) (h : assembleLine l = .ok ws) :
    ∀ w ∈ ws, ∃ c, decode w = .ok c := by
  cases l with
  | clear => exact decode_of_line_instr h
  | writePixel p g r b => exact decode_of_line_pixel h
  | draw d => exact decode_of_line_instr h
  | emit => exact decode_of_line_instr h
  | render d => exact decode_of_line_instr h
  | map i j => exact decode_of_line_instr h
  | word n => exact absurd rfl (hl n)
  | blank =>
    cases h
    exact List.forall_mem_cons.mpr ⟨⟨_, decodeOfEncodeIsTheCommand .clear rfl⟩,
      List.forall_mem_singleton.mpr ⟨_, decodeOfEncodeIsTheCommand .emit rfl⟩⟩
  | plot i j g r b =>
    by_cases hc : coordInRange i j = true
    · exact decode_of_line_pixel ((if_pos hc).symm.trans h)
    · cases (if_neg hc).symm.trans h
  | fill g r b =>
    intro w hw
    obtain ⟨k, -, hk⟩ := exists_of_mem_mapM h hw
    exact decode_of_assemblePixel hk

/-- Settles O47: an operand that does not fit makes the line's one command an error, and what is assembled is the word of a
well-formed command, which decodes by O2. -/
theorem assembledLinesAreCommands : Obligations.AssembledLinesAreCommands := by
  refine ⟨fun p g r b h => ?_, fun d h => ?_, fun i j h => ?_, fun l ws => decode_of_assembleLine⟩
  · rw [assembleLine, assemblePixel_tooLarge h]
    rfl
  · have hfits : ¬ d < 16 := not_lt.mpr h
    exact ⟨line_instr_tooLarge (i := .draw d) (decide_eq_false hfits),
      line_instr_tooLarge (i := .render d) (decide_eq_false hfits)⟩
  · have hwf : (Instr.map i j).wf = false := by simp [Instr.wf]; omega
    exact line_instr_tooLarge hwf

end Sys2Proof.Machine
end

section
/-!
SUPPORT. The buffer commands CLEAR and WRITE_PIXEL (41_buffer_ops.md): their words, and what each leaves of a ready block.
-/

namespace Sys2Proof

/-! ## The words of formats Z and P (R62, R63) -/

/-- A word of a format Z opcode other than the format's own has a reserved bit set (R62, R67). -/
theorem reservedBits_ne_zero {op : BitVec 3} {w : Word} (hop : opcode w = op) (hw : w ≠ formatZ op) :
    w.extractLsb' 0 29 ≠ 0 :=
  fun hz => hw (formatZ_of_fields hop hz).symm

/-- Two bit vectors side by side, as a sum. -/
theorem toNat_append_eq_add {m n : Nat} (x : BitVec m) (y : BitVec n) :
    (x ++ y).toNat = x.toNat * 2 ^ n + y.toNat := by
  rw [BitVec.toNat_append, ← Nat.shiftLeft_add_eq_or_of_lt y.isLt, Nat.shiftLeft_eq]

/-- The word of format P as the sum R63 and R79 write. -/
theorem formatP_toNat (op : BitVec 3) {p : Nat} (hp : p < 32) (g r b : BitVec 8) :
    (formatP op p g r b).toNat =
      op.toNat * 2 ^ 29 + p * 2 ^ 24 + g.toNat * 2 ^ 16 + r.toNat * 2 ^ 8 + b.toNat := by
  have hfield : (BitVec.ofNat 5 p).toNat = p := Nat.mod_eq_of_lt hp
  rw [formatP_eq_append]
  simp only [toNat_append_eq_add, hfield]
  omega

/-- Every word with CLEAR's opcode but CLEAR's own is ILLEGAL (R78, R119). -/
theorem decode_clear_reserved {w : Word} (hop : opcode w = 0b001#3) (hw : w ≠ encode .clear) :
    decode w = .error .reservedBits := by
  unfold decode
  rw [if_pos hop, if_neg (reservedBits_ne_zero hop hw)]

/-- Format P has no reserved bits, so no word with WRITE_PIXEL's opcode is ILLEGAL (R79). -/
theorem decode_writePixel {w : Word} (hop : opcode w = 0b010#3) :
    decode w = .ok (.writePixel (w.extractLsb' 24 5).toNat (w.extractLsb' 16 8) (w.extractLsb' 8 8)
      (w.extractLsb' 0 8)) := by
  simp [decode, hop]

end Sys2Proof

namespace Sys2Proof.Machine

/-- `respond` gives its response word, once (R71). -/
theorem respond_responded (st : Status) (n : Nat) (s : State) : responded s (s.respond st n) (responseWord st n) :=
  ⟨rfl, rfl, rfl⟩

/-! ## WRITE_PIXEL (R79) -/

theorem doWritePixel_inRange {p : Nat} (hp : p ≤ 24) (g r b : Byte) (s : State) :
    doWritePixel p g r b s = State.respond .ok 0 { s with buf := s.buf.setPixel p ⟨g, r, b⟩ } :=
  if_pos (pixelInRange_iff.mpr (Nat.lt_succ_of_le hp))

theorem doWritePixel_outOfRange {p : Nat} (hp : 24 < p) (g r b : Byte) (s : State) :
    doWritePixel p g r b s = s.refuse .outOfRange :=
  if_neg fun hin => Nat.not_lt_of_le hp (pixelInRange_iff.mp hin)

/-- Settles O11: the word is format P's sum, which has no reserved bits; in range the pseudocode is one `setPixel` and a
response, out of range a refusal. -/
theorem writePixelWritesOnePixel : Obligations.WritePixelWritesOnePixel := by
  refine ⟨fun p g r b hp => formatP_toNat 0b010#3 hp g r b, fun w hop => ⟨_, _, _, _, decode_writePixel hop⟩,
    fun s p g r b hr => ⟨fun hp => ?_, fun hp => ?_⟩⟩
  · refine ⟨_, (exec_ready hr _).trans (congrArg _ (doWritePixel_inRange hp g r b s)), ?_, fun a ha => ?_,
      respond_responded .ok 0 _, rfl⟩
    · exact (Memory.pixel_setPixel s.buf p p ⟨g, r, b⟩).trans (if_pos rfl)
    · exact Memory.read_setPixel_outside s.buf p ⟨g, r, b⟩ a ha
  · exact ⟨_, (exec_ready hr _).trans (congrArg _ (doWritePixel_outOfRange hp g r b s)),
      respond_responded .outOfRange 0 s, rfl⟩

/-! ## CLEAR (R78), and CLEAR before EMIT (R97) -/

/-- Settles O10: format Z leaves CLEAR one word, and its pseudocode is an empty listing and a response. -/
theorem clearSetsEveryPixelToZero : Obligations.ClearSetsEveryPixelToZero := by
  refine ⟨rfl, fun w => decode_clear_reserved, fun s hr => ?_⟩
  exact ⟨_, exec_ready hr .clear, rfl, fun _ _ => rfl, respond_responded .ok 0 s.clearBuf, rfl⟩

/-- The frame of a clear BUF is dark: 75 zero bytes and the Latch. -/
theorem frameEvents_zero : frameEvents Memory.zero = List.replicate 75 (Event.byte 0x00#8) ++ [.latch] := by
  have hframe : Memory.zero.frame = List.replicate nBytes 0x00#8 := by
    rw [Memory.frame_eq, List.eq_replicate_iff]
    simp
  rw [frameEvents, hframe, List.map_replicate]

/-- Settles O20: CLEAR leaves the block ready with BUF zero, and EMIT then adds the frame of that BUF. -/
theorem clearThenEmitIsADarkFrame : Obligations.ClearThenEmitIsADarkFrame := by
  intro s hr
  have hr' := (perform_cmdReady Config.params .clear s).trans hr
  refine ⟨_, _, exec_ready hr .clear, exec_ready hr' .emit, ?_, rfl⟩
  show s.events ++ frameEvents Memory.zero = _
  rw [frameEvents_zero, List.append_assoc]

end Sys2Proof.Machine
end

section
/-!
SUPPORT. The renderer's commands MAP, DRAW and RENDER (42_renderer.md): the serpentine mapper and its inverse, the words of
the three commands, what each leaves of a ready block, and the frame of a drawn digit.
-/

namespace Sys2Proof

/-! ## The words of formats D and C (R64, R65) -/

/-- The word of format D as the sum R92 and R93 write. -/
theorem formatD_toNat (op : BitVec 3) {d : Nat} (hd : d < 16) : (formatD op d).toNat = op.toNat * 2 ^ 29 + d := by
  have hfield : (BitVec.ofNat 4 d).toNat = d := Nat.mod_eq_of_lt hd
  rw [formatD_eq_append]
  simp only [toNat_append_eq_add, hfield, BitVec.toNat_ofNat]
  omega

/-- The word of format C as the sum R91 writes. -/
theorem formatC_toNat (op : BitVec 3) {i j : Nat} (hi : i < 16) (hj : j < 16) :
    (formatC op i j).toNat = op.toNat * 2 ^ 29 + i * 16 + j := by
  have hrow : (BitVec.ofNat 4 i).toNat = i := Nat.mod_eq_of_lt hi
  have hcol : (BitVec.ofNat 4 j).toNat = j := Nat.mod_eq_of_lt hj
  rw [formatC_eq_append]
  simp only [toNat_append_eq_add, hrow, hcol, BitVec.toNat_ofNat]
  omega

section
variable {w : Word}

/-- The reading of a word with DRAW's opcode (R92). -/
theorem decode_draw_eq (hop : opcode w = 0b011#3) :
    decode w = if w.extractLsb' 4 25 = 0 then .ok (.draw (w.extractLsb' 0 4).toNat) else .error .reservedBits := by
  simp [decode, hop]

/-- The reading of a word with RENDER's opcode (R93). -/
theorem decode_render_eq (hop : opcode w = 0b101#3) :
    decode w = if w.extractLsb' 4 25 = 0 then .ok (.render (w.extractLsb' 0 4).toNat) else .error .reservedBits := by
  simp [decode, hop]

/-- The reading of a word with MAP's opcode (R91). -/
theorem decode_map_eq (hop : opcode w = 0b110#3) :
    decode w = if w.extractLsb' 8 21 = 0 then .ok (.map (w.extractLsb' 4 4).toNat (w.extractLsb' 0 4).toNat)
      else .error .reservedBits := by
  simp [decode, hop]

end

end Sys2Proof

namespace Sys2Proof.Machine

/-! ## The serpentine mapper (R83 to R87) -/

/-- Settles O12: both tables are evaluated. -/
theorem physAndInvAreTheTables : Obligations.PhysAndInvAreTheTables := by
  unfold Obligations.PhysAndInvAreTheTables
  decide

/-- `inv` undoes `phys` on the 25 cells of the grid (R86). -/
theorem inv_phys (x : Fin nRows × Fin nCols) : inv (phys x.1 x.2) = (x.1.val, x.2.val) := by
  revert x; decide

/-- Settles O13: `inv` undoes `phys` on the grid, and every pixel is the place of a cell, so `phys` undoes `inv` too. -/
theorem serpentineMapIsABijection : Obligations.SerpentineMapIsABijection := by
  refine ⟨fun i j hi hj => ⟨phys_lt (⟨i, hi⟩, ⟨j, hj⟩), inv_phys (⟨i, hi⟩, ⟨j, hj⟩)⟩, fun p hp => ?_⟩
  obtain ⟨x, rfl⟩ := phys_surj hp
  rw [inv_phys]
  exact ⟨x.1.isLt, x.2.isLt, rfl⟩

/-! ## The frame of a drawn digit (R96) -/

/-- The cell shown at the place of a cell is that cell. -/
theorem cellAt_phys (G : Glyph) (x : Fin nRows × Fin nCols) : cellAt G (phys x.1 x.2) = G x.1 x.2 := by
  simp [cellAt, inv_phys]

/-- Every pixel of a drawn BUF shows the cell at its inverse coordinate, by channel name (R85, R92). -/
theorem Memory.pixel_draw_cellAt (m : Memory) (G : Glyph) {k : Nat} (hk : k < nPix) :
    (m.draw G).pixel k = Cell.toPixel (cellAt G k) := by
  obtain ⟨x, rfl⟩ := phys_surj hk
  rw [Memory.pixel_draw, cellAt_phys]

/-- A drawn BUF is sent as the digit's 75 bytes, whatever it held before. -/
theorem Memory.frame_draw (m : Memory) (G : Glyph) : (m.draw G).frame = glyphFrame G :=
  List.flatMap_congr fun k hk => by
    rw [Memory.pixel_draw_cellAt m G (List.mem_range.mp hk)]
    rfl

theorem frameEvents_draw (m : Memory) (G : Glyph) :
    frameEvents (m.draw G) = (glyphFrame G).map Event.byte ++ [.latch] := by
  rw [frameEvents, Memory.frame_draw]

/-- The digit's bytes as events, pixel by pixel. -/
theorem map_byte_glyphFrame (G : Glyph) :
    (glyphFrame G).map Event.byte = (List.range nPix).flatMap fun k =>
      [Event.byte (cellAt G k).G, Event.byte (cellAt G k).R, Event.byte (cellAt G k).B] :=
  List.map_flatMap

/-! ## A command out of range (R120, R122) -/

/-- A ready block answers OUT_OF_RANGE to a command whose pseudocode refuses, and nothing but the response changes. -/
theorem exec_outOfRange {i : Instr} {s : State} (hr : s.cmdReady = true)
    (h : perform Config.params i s = s.refuse .outOfRange) :
    ∃ t, exec i s = .next t ∧ responded s t 0x00000001#32 ∧ sameButResponse s t :=
  ⟨_, (exec_ready hr i).trans (congrArg _ h), respond_responded .outOfRange 0 s, rfl⟩

/-! ## MAP (R91) -/

theorem doMap_inRange {i j : Nat} (hi : i ≤ 4) (hj : j ≤ 4) (s : State) :
    doMap i j s = s.respond .ok (phys i j) :=
  if_pos (coordInRange_iff.mpr ⟨Nat.lt_succ_of_le hi, Nat.lt_succ_of_le hj⟩)

theorem doMap_outOfRange {i j : Nat} (h : 4 < i ∨ 4 < j) (s : State) : doMap i j s = s.refuse .outOfRange :=
  if_neg fun hin => by
    obtain ⟨hi, hj⟩ : i < 5 ∧ j < 5 := coordInRange_iff.mp hin
    omega

/-- A five-bit data field stands at bits 12:8 of the response, above a status of 0 (R68). -/
theorem responseWord_ok {n : Nat} (hn : n < 32) : responseWord .ok n = BitVec.ofNat 32 (n * 256) := by
  have hfield : (BitVec.ofNat 5 n).toNat = n := Nat.mod_eq_of_lt hn
  apply BitVec.eq_of_toNat_eq
  show (0#19 ++ BitVec.ofNat 5 n ++ 0#8 : BitVec (19 + 5 + 8)).toNat = _
  simp only [toNat_append_eq_add, hfield, BitVec.toNat_ofNat]
  omega

/-- Settles O14: the word is format C's sum; inside the grid the pseudocode is one response that holds a pixel index, which
fits the data field, outside it a refusal. -/
theorem mapAnswersTheSerpentineIndex : Obligations.MapAnswersTheSerpentineIndex := by
  refine ⟨fun i j hi hj => formatC_toNat 0b110#3 hi hj, fun w hop hz => (decode_map_eq hop).trans (if_neg hz),
    fun s i j hr => ⟨fun hi hj => ?_, fun hout => exec_outOfRange hr (doMap_outOfRange hout s)⟩⟩
  have hpix : phys i j < nPix := phys_lt (⟨i, Nat.lt_succ_of_le hi⟩, ⟨j, Nat.lt_succ_of_le hj⟩)
  rw [← responseWord_ok (Nat.lt_trans hpix (by decide))]
  exact ⟨_, (exec_ready hr _).trans (congrArg _ (doMap_inRange hi hj s)), respond_responded .ok _ s, rfl⟩

/-! ## DRAW (R92) -/

theorem doDraw_digit (P : Params) (d : Fin nGlyphs) (s : State) :
    doDraw P d.val s = (s.drawDigit P d).respond .ok 0 := by
  rw [doDraw, digit?_eq_some.mpr rfl]

theorem doDraw_outOfRange (P : Params) {d : Nat} (hd : 9 < d) (s : State) : doDraw P d s = s.refuse .outOfRange := by
  rw [doDraw, digit?_eq_none.mpr hd]

/-- Settles O15: the word is format D's sum; for a digit the pseudocode draws and responds, and a drawn BUF holds every cell
at its place, above 9 it refuses. -/
theorem drawCopiesTheGlyphByChannelName : Obligations.DrawCopiesTheGlyphByChannelName := by
  refine ⟨fun d hd => formatD_toNat 0b011#3 hd, fun w hop hz => (decode_draw_eq hop).trans (if_neg hz),
    fun s d hr => ?_, fun s d hr hd => exec_outOfRange hr (doDraw_outOfRange _ hd s)⟩
  exact ⟨_, (exec_ready hr _).trans (congrArg _ (doDraw_digit _ d s)), Memory.pixel_draw s.buf _,
    respond_responded .ok 0 (s.drawDigit _ d), rfl⟩

/-! ## RENDER (R93 to R95) -/

theorem doRender_digit (P : Params) (d : Fin nGlyphs) (s : State) :
    doRender P d.val s = ((s.clearBuf.drawDigit P d).emitFrame P).clearBuf.respond .ok 0 := by
  rw [doRender, digit?_eq_some.mpr rfl]

theorem doRender_outOfRange (P : Params) {d : Nat} (hd : 9 < d) (s : State) :
    doRender P d s = s.refuse .outOfRange := by
  rw [doRender, digit?_eq_none.mpr hd]

/-- Settles O16: the word is format D's sum; for a digit the pseudocode sends what it drew on a clear BUF and clears again,
above 9 it refuses. -/
theorem renderSendsTheGlyphAndClears : Obligations.RenderSendsTheGlyphAndClears := by
  refine ⟨fun d hd => formatD_toNat 0b101#3 hd, fun w hop hz => (decode_render_eq hop).trans (if_neg hz),
    fun s d hr => ?_, fun s d hr hd => exec_outOfRange hr (doRender_outOfRange _ hd s)⟩
  refine ⟨_, (exec_ready hr _).trans (congrArg _ (doRender_digit _ d s)), ?_, rfl, rfl, ⟨rfl, rfl, rfl⟩, rfl⟩
  show s.events ++ frameEvents (Memory.zero.draw _) = _
  rw [frameEvents_draw, List.append_assoc]

/-- What a word with RENDER's opcode does to an accepting block: a reserved bit makes it ILLEGAL, a digit above 9 is out of
range, and any other digit is rendered (R93, R119). -/
theorem transact_render_opcode (P : Params) {w : Word} (hop : opcode w = 0b101#3) (s : State) :
    transact P w s = s.refuse .illegal ∨ transact P w s = s.refuse .outOfRange ∨
      ∃ d : Fin nGlyphs, transact P w s = doRender P d.val s := by
  rw [transact, decode_render_eq hop]
  by_cases hz : w.extractLsb' 4 25 = 0
  · rw [if_pos hz]
    by_cases hd : (w.extractLsb' 0 4).toNat < nGlyphs
    · exact .inr (.inr ⟨⟨_, hd⟩, rfl⟩)
    · exact .inr (.inl (doRender_outOfRange P (Nat.not_lt.mp hd) s))
  · rw [if_neg hz]
    exact .inl rfl

/-- Settles O17: the three outcomes of RENDER's opcode carry three different responses; the two refusals leave BUF alone and
the rendered digit leaves it zero. -/
theorem afterRenderTheBufferIsZero : Obligations.AfterRenderTheBufferIsZero := by
  intro s t hr hv hop hstep
  rw [step_accepted (accepted?_eq_some.mpr ⟨hr, hv, rfl⟩)] at hstep
  cases hstep
  obtain h | h | ⟨d, h⟩ := transact_render_opcode Config.params hop s
  · rw [h]
    exact ⟨fun hok => absurd hok (show responseWord .illegal 0 ≠ 0x00000000#32 by decide), fun _ => rfl⟩
  · rw [h]
    exact ⟨fun hok => absurd hok (show responseWord .outOfRange 0 ≠ 0x00000000#32 by decide), fun _ => rfl⟩
  · rw [h, doRender_digit]
    exact ⟨fun _ _ _ => rfl, fun hbad => absurd hbad
      (show ¬ (responseWord .ok 0 = 0x00000001#32 ∨ responseWord .ok 0 = 0x00000002#32) by decide)⟩

/-! ## DRAW then EMIT, and RENDER (R96) -/

/-- DRAW of a digit draws on BUF and sends nothing (R92). -/
theorem perform_draw (P : Params) (d : Fin nGlyphs) (s : State) :
    (perform P (.draw d.val) s).buf = s.buf.draw (P.glyph d) ∧ (perform P (.draw d.val) s).events = s.events := by
  simp [perform, doDraw_digit]

/-- EMIT sends the frame of BUF (R97). -/
theorem perform_emit_events (P : Params) (s : State) :
    (perform P .emit s).events = s.events ++ frameEvents s.buf := rfl

/-- Settles O18: EMIT after DRAW sends the frame of a BUF drawn on whatever was there, RENDER that of one drawn on a clear
BUF, and both are the digit's own frame. -/
theorem drawThenEmitSendsTheBitmap : Obligations.DrawThenEmitSendsTheBitmap := by
  intro s v d hs hv
  have hdrawn := (perform_cmdReady Config.params (.draw d.val) s).trans hs
  obtain ⟨hbuf, hquiet⟩ := perform_draw Config.params d s
  obtain ⟨-, hrender⟩ := perform_render Config.params d v
  have hemit := perform_emit_events Config.params (perform Config.params (.draw d.val) s)
  rw [hquiet, hbuf, frameEvents_draw] at hemit
  rw [frameEvents_draw] at hrender
  refine ⟨_, _, _, exec_ready hs _, exec_ready hdrawn .emit, exec_ready hv _, ?_, _, hemit, hrender, ?_⟩
  · rw [hemit, map_byte_glyphFrame, List.append_assoc]
  · rw [← frameEvents_draw Memory.zero, frameEvents_length]

end Sys2Proof.Machine
end

section
/-!
SUPPORT. The streamer one edge at a time (43_stream.md section 2): what the serializer and the emitter can do at an edge from
any state, the bytes that no edge of STREAM loses, and the line while one byte goes out.
-/

namespace Sys2Proof.Machine

/-! ## The stream cursor (R99) -/

/-- Settles O38: inside a pixel the channel moves; from its last channel the pixel moves, while there is a next one. -/
theorem cursorAdvancesThroughChannelsThenPixels : Obligations.CursorAdvancesThroughChannelsThenPixels :=
  ⟨fun _ => rfl, fun _ => rfl, fun _ hk => if_pos (Nat.succ_lt_succ hk), rfl, fun _ _ => rfl⟩

/-! ## The serializer at an edge (R107) -/

/-- A bit of SHIFT has gone out. -/
def State.shifted (s : State) : State := { s with shift := s.shift <<< 1, nbit := s.nbit - 1, bitT := 0 }

/-- All that the serializer can do at an edge: wait for a byte, take one, go on with the bit, go on to the next bit, or end
the byte. -/
theorem serializerEdge_cases (P : Params) (s : State) :
    (s.nbit = 0 ∧ s.fifo = [] ∧ serializerEdge P s = s) ∨
    (s.nbit = 0 ∧ ∃ v rest, s.fifo = v :: rest ∧ serializerEdge P s = s.load v rest) ∨
    (s.nbit ≠ 0 ∧ s.bitT + 1 < P.tBit ∧ serializerEdge P s = { s with bitT := s.bitT + 1 }) ∨
    (2 ≤ s.nbit ∧ P.tBit ≤ s.bitT + 1 ∧ serializerEdge P s = s.shifted) ∨
    (s.nbit = 1 ∧ P.tBit ≤ s.bitT + 1 ∧ serializerEdge P s = s.shifted.endByte) := by
  unfold serializerEdge
  by_cases hn : s.nbit = 0
  · rw [if_pos hn]
    cases hf : s.fifo with
    | nil => exact .inl ⟨hn, rfl, rfl⟩
    | cons v rest => exact .inr (.inl ⟨hn, v, rest, rfl, rfl⟩)
  · rw [if_neg hn]
    by_cases ht : s.bitT + 1 < P.tBit
    · exact .inr (.inr (.inl ⟨hn, ht, if_pos ht⟩))
    · rw [if_neg ht]
      by_cases hlast : s.nbit - 1 = 0
      · exact .inr (.inr (.inr (.inr ⟨by omega, by omega, if_pos hlast⟩)))
      · exact .inr (.inr (.inr (.inl ⟨by omega, by omega, if_neg hlast⟩)))

/-- The byte in SHIFT counts as sent (log entry 11). -/
def State.sent (s : State) : State := { s with events := s.events ++ [.byte s.txByte] }

/-- All that the end of a byte can be: the next byte, the end of the frame, or a wait for the emitter. -/
theorem endByte_cases (s : State) :
    (∃ v rest, s.fifo = v :: rest ∧ s.endByte = s.sent.load v rest) ∨
    (s.fifo = [] ∧ s.cur = none ∧ s.endByte = s.sent.endFrame) ∨
    (s.fifo = [] ∧ (∃ x, s.cur = some x) ∧ s.endByte = { s.sent with txByte := 0x00#8 }) := by
  simp only [State.endByte]
  split
  · next v rest hf => exact .inl ⟨v, rest, hf, rfl⟩
  · next hf =>
    split
    · next hc => exact .inr (.inl ⟨hf, hc, rfl⟩)
    · next x hc => exact .inr (.inr ⟨hf, ⟨x, hc⟩, rfl⟩)

/-- With bytes of the frame still to come the serializer stays in STREAM, leaves BUF and CUR to the emitter, and takes at
most the oldest byte of FIFO. -/
theorem serializerEdge_leaves_emitter (P : Params) {s : State} {x : Cursor} (hc : s.cur = some x) :
    (serializerEdge P s).phase = s.phase ∧ (serializerEdge P s).buf = s.buf ∧ (serializerEdge P s).cur = some x ∧
      ((serializerEdge P s).fifo = s.fifo ∨ (serializerEdge P s).fifo = s.fifo.tail) := by
  obtain ⟨-, -, e⟩ | ⟨-, v, rest, hf, e⟩ | ⟨-, -, e⟩ | ⟨-, -, e⟩ | ⟨-, -, e⟩ := serializerEdge_cases P s
  · rw [e]; exact ⟨rfl, rfl, hc, .inl rfl⟩
  · rw [e, hf]; exact ⟨rfl, rfl, hc, .inr rfl⟩
  · rw [e]; exact ⟨rfl, rfl, hc, .inl rfl⟩
  · rw [e]; exact ⟨rfl, rfl, hc, .inl rfl⟩
  · obtain ⟨v, rest, hf, e'⟩ | ⟨-, hnone, -⟩ | ⟨-, -, e'⟩ := endByte_cases s.shifted
    · rw [e, e', show s.fifo = v :: rest from hf]; exact ⟨rfl, rfl, hc, .inr rfl⟩
    · exact absurd (hc.symm.trans hnone) (by simp)
    · rw [e, e']; exact ⟨rfl, rfl, hc, .inl rfl⟩

/-! ## The emitter beside it (R105) -/

/-- All that STREAM can do at an edge: spend a start-up cycle, or run the serializer, with or without a `send` beside it. -/
theorem streamEdge_cases (P : Params) (s : State) :
    (0 < s.wait ∧ streamEdge P s = { s with wait := s.wait - 1 }) ∨ streamEdge P s = serializerEdge P s ∨
      ∃ x, s.cur = some x ∧ streamEdge P s = (serializerEdge P s).send x := by
  by_cases hw : 0 < s.wait
  · exact .inl ⟨hw, if_pos hw⟩
  · have hw0 : s.wait = 0 := by omega
    cases hc : s.cur with
    | none => exact .inr (.inl (streamEdge_done hw0 hc))
    | some x =>
      by_cases hroom : s.fifo.length < P.fifoDepth
      · exact .inr (.inr ⟨x, rfl, streamEdge_send hw0 hc hroom⟩)
      · exact .inr (.inl (streamEdge_full hw0 hc hroom))

/-- An edge of STREAM with rst = 0. -/
theorem clockEdge_stream {P : Params} {s : State} (hp : s.phase = .stream) (hr : s.port.rst = false) :
    clockEdge P s = (streamEdge P s.quiet).levelled P := by
  rw [clockEdge_run hr]
  simp [phaseEdge, State.quiet, hp]

/-- Settles O39: with room the edge is the serializer's and a `send`, without room the serializer's alone, and the serializer
takes at most the oldest byte of FIFO. -/
theorem emitterSendsWhenFifoHasRoom : Obligations.EmitterSendsWhenFifoHasRoom := by
  intro P s x hp hw hr hc
  obtain ⟨-, hbuf, hcur, hfifo⟩ := serializerEdge_leaves_emitter P (s := s.quiet) hc
  rw [clockEdge_stream hp hr]
  refine ⟨fun hroom => ?_, fun hfull => ?_⟩
  · rw [streamEdge_send (s := s.quiet) hw hc hroom]
    have hsent : ((serializerEdge P s.quiet).send x).fifo = (serializerEdge P s.quiet).fifo ++ [s.buf.read x.addr] := by
      rw [State.send_fifo, hbuf]; rfl
    exact ⟨rfl, hfifo.imp (fun h => hsent.trans (congrArg (· ++ _) h)) fun h => hsent.trans (congrArg (· ++ _) h)⟩
  · rw [streamEdge_full (s := s.quiet) hw hc hfull]
    exact ⟨hcur, hfifo⟩

/-! ## No byte is lost (R106) -/

/-- The bytes of the frame in progress in the order of the line: those sent, then those pending. -/
def State.conserved (s : State) : List Event := s.events ++ s.pending.map Event.byte

theorem conserved_eq {s : State} (hp : s.phase = .stream) :
    s.conserved = s.events ++ ((if s.nbit = 0 then [] else [s.txByte]) ++ s.bytesLeft).map Event.byte := by
  rw [State.conserved, pending_eq hp]

/-- The byte in SHIFT is sent, and the bytes left are as before, whichever of them SHIFT takes next. -/
theorem endByte_conserved {s : State} (hp : s.phase = .stream) (hn : s.nbit = 0) :
    s.endByte.conserved = s.events ++ (s.txByte :: s.bytesLeft).map Event.byte := by
  obtain ⟨v, rest, hf, e⟩ | ⟨hf, hc, e⟩ | ⟨hf, -, e⟩ := endByte_cases s
  · rw [e, conserved_eq (s := s.sent.load v rest) hp]
    simp [State.sent, State.bytesLeft, hf]
  · rw [e]
    simp [State.conserved, State.sent, State.pending, State.bytesLeft, hf, hc]
  · rw [e, conserved_eq (s := { s.sent with txByte := 0x00#8 }) hp]
    simp [State.sent, State.bytesLeft, hn]

theorem serializerEdge_conserved (P : Params) {s : State} (hp : s.phase = .stream) :
    (serializerEdge P s).conserved = s.conserved := by
  obtain ⟨-, -, e⟩ | ⟨hn, v, rest, hf, e⟩ | ⟨-, -, e⟩ | ⟨hn, -, e⟩ | ⟨hn, -, e⟩ := serializerEdge_cases P s
  · rw [e]
  · rw [e, conserved_eq hp, conserved_eq (s := s.load v rest) hp]
    simp [State.bytesLeft, hn, hf]
  · rw [e]; rfl
  · rw [e, conserved_eq hp, conserved_eq (s := s.shifted) hp]
    simp [State.shifted, State.bytesLeft, show s.nbit ≠ 0 by omega, show s.nbit - 1 ≠ 0 by omega]
  · rw [e, endByte_conserved (s := s.shifted) hp (by simp [State.shifted, hn]), conserved_eq hp, if_neg (by omega)]
    rfl

theorem send_conserved {s : State} {x : Cursor} (hp : s.phase = .stream) (hc : s.cur = some x) (hx : x.k < nPix) :
    (s.send x).conserved = s.conserved := by
  rw [conserved_eq hp, conserved_eq (s := s.send x) hp, bytesLeft_send hc hx]
  rfl

theorem streamEdge_conserved (P : Params) {s : State} (hp : s.phase = .stream)
    (hcur : ∀ x, s.cur = some x → x.k < nPix) : (streamEdge P s).conserved = s.conserved := by
  obtain ⟨-, e⟩ | e | ⟨x, hc, e⟩ := streamEdge_cases P s
  · rw [e]; rfl
  · rw [e, serializerEdge_conserved P hp]
  · obtain ⟨hphase, -, hcur', -⟩ := serializerEdge_leaves_emitter P hc
    rw [e, send_conserved (hphase.trans hp) hcur' (hcur x hc), serializerEdge_conserved P hp]

/-- Settles O40: neither the serializer nor a `send` moves a byte out of its place in the sequence. -/
theorem streamLosesNoByte : Obligations.StreamLosesNoByte := by
  intro P s hp hr hcur
  rw [clockEdge_stream hp hr]
  exact streamEdge_conserved P (s := s.quiet) hp hcur

/-! ## One byte on the line (R107, R108) -/

/-- The serializer has bits of SHIFT to send, whatever the emitter does. -/
def State.sending (P : Params) (s : State) : Prop :=
  s.phase = .stream ∧ s.wait = 0 ∧ 1 ≤ s.nbit ∧ s.nbit ≤ chanBits ∧ s.bitT < P.tBit

/-- The line from this cycle to the end of the byte in SHIFT. -/
def State.byteLine (P : Params) (s : State) : List Bool := (waves P ((bitsOf s.shift).take s.nbit)).drop s.bitT

/-- The bits still to send: SHIFT[7], then those of SHIFT after a shift (R107). -/
theorem bitsOf_take (v : Byte) {n : Nat} (h1 : 1 ≤ n) (h8 : n ≤ chanBits) :
    (bitsOf v).take n = v.msb :: (bitsOf (v <<< 1)).take (n - 1) := by
  have h8' : n ≤ 8 := h8
  refine List.ext_getElem (by simp; omega) fun k _ _ => ?_
  cases k with
  | zero => simp [bitsOf, BitVec.msb]
  | succ k => simp [bitsOf, BitVec.getMsbD_shiftLeft]

section
variable {P : Params} {s : State} (h : s.sending P)
include h

/-- The line is at the level of the bit being sent, and goes on with the rest of its period and the bits after it. -/
theorem byteLine_eq_cons : s.byteLine P = lineLevel P s ::
    ((waveform P s.shift.msb).drop (s.bitT + 1) ++ waves P ((bitsOf (s.shift <<< 1)).take (s.nbit - 1))) := by
  obtain ⟨hp, -, h1, h8, ht⟩ := h
  rw [State.byteLine, bitsOf_take _ h1 h8, waves_cons, List.drop_append_of_le_length (by simp; omega),
    waveform_drop _ _ _ ht]
  simp [lineLevel, hp, show 0 < s.nbit by omega]

/-- The serializer's edge before the last one of the byte: the line goes on where it was. -/
theorem serializerEdge_byteLine (hmore : s.byteLine P ≠ [lineLevel P s]) :
    (serializerEdge P s).sending P ∧ s.byteLine P = lineLevel P s :: (serializerEdge P s).byteLine P := by
  have hline := byteLine_eq_cons h
  obtain ⟨hp, hw, h1, h8, ht⟩ := h
  have hT := P.tBit_ge
  obtain ⟨hn, -, -⟩ | ⟨hn, -⟩ | ⟨-, hbit, e⟩ | ⟨hn, hbit, e⟩ | ⟨hn, hbit, -⟩ := serializerEdge_cases P s
  · omega
  · omega
  · rw [e, hline]
    refine ⟨⟨hp, hw, h1, h8, hbit⟩, ?_⟩
    simp only [State.byteLine]
    rw [bitsOf_take _ h1 h8, waves_cons, List.drop_append_of_le_length (by simp; omega)]
  · rw [e, hline, List.drop_eq_nil_of_le (by simp; omega)]
    exact ⟨⟨hp, hw, Nat.le_sub_of_add_le hn, (Nat.sub_le _ _).trans h8, by simp [State.shifted]; omega⟩, rfl⟩
  · refine absurd (hline.trans ?_) hmore
    rw [List.drop_eq_nil_of_le (by simp; omega), hn]
    rfl

/-- The emitter beside the serializer moves FIFO and CUR only. -/
theorem streamEdge_byteLine (hmore : s.byteLine P ≠ [lineLevel P s]) :
    (streamEdge P s).sending P ∧ s.byteLine P = lineLevel P s :: (streamEdge P s).byteLine P := by
  have hser := serializerEdge_byteLine h hmore
  obtain ⟨hw, -⟩ | e | ⟨x, -, e⟩ := streamEdge_cases P s
  · obtain ⟨-, hw0, -⟩ := h
    omega
  · rw [e]; exact hser
  · rw [e]; exact hser

end

/-- The levels of the line to the end of the byte in SHIFT, the level now among them. -/
theorem lineTrace_byteLine {P : Params} (ins : List PortIn) {s : State} (h : s.sending P) (hr : noReset ins)
    (hn : ins.length + 1 = (s.byteLine P).length) : lineLevel P s :: lineTrace P s ins = s.byteLine P := by
  induction ins generalizing s with
  | nil =>
    rw [byteLine_eq_cons h] at hn ⊢
    rw [List.length_cons, List.length_nil, Nat.add_right_cancel_iff] at hn
    rw [List.eq_nil_of_length_eq_zero hn.symm, lineTrace_nil]
  | cons i is ih =>
    obtain ⟨hr0, hrs⟩ := noReset_cons.mp hr
    have hmore : s.byteLine P ≠ [lineLevel P s] := fun hend => by simp [hend] at hn
    have he : clockWith P s i = (streamEdge P { s.quiet with port := i }).levelled P :=
      clockEdge_stream (s := { s with port := i }) h.1 hr0
    obtain ⟨hnext, hline⟩ : (clockWith P s i).sending P ∧
        s.byteLine P = lineLevel P s :: (clockWith P s i).byteLine P :=
      he ▸ streamEdge_byteLine (s := { s.quiet with port := i }) h hmore
    have hdout : (clockWith P s i).dout = lineLevel P (clockWith P s i) := by rw [he]; rfl
    rw [hline, List.length_cons, List.length_cons, Nat.add_right_cancel_iff] at hn
    rw [hline, lineTrace_cons, hdout, ih hnext hrs hn]

/-- Settles O41: at its first cycle the line of the byte is the waveforms of all eight bits. -/
theorem byteGoesOutMostSignificantBitFirst : Obligations.ByteGoesOutMostSignificantBitFirst := by
  intro P s ins hp hw hn ht hd hr hlen
  have hT := P.tBit_ge
  have hline : s.byteLine P = waves P (bitsOf s.shift) := by
    rw [State.byteLine, hn, ht, List.drop_zero, List.take_of_length_le (by simp)]
  have hs : s.sending P := ⟨hp, hw, by omega, by rw [hn], by omega⟩
  rw [hd, lineTrace_byteLine ins hs hr (by rw [hline, waves_length, bitsOf_length, hlen]), hline]
  rfl

end Sys2Proof.Machine
end

section
/-!
SUPPORT. EMIT and its frame (43_stream.md): EMIT's word, the transaction's events, the frame and the gap on the line.
-/

namespace Sys2Proof

/-- Every word with EMIT's opcode but EMIT's own is ILLEGAL (R97, R119). -/
theorem decode_emit_reserved {w : Word} (hop : opcode w = 0b100#3) (hw : w ≠ encode .emit) :
    decode w = .error .reservedBits := by
  simpa [decode, hop] using reservedBits_ne_zero hop hw

end Sys2Proof

namespace Sys2Proof.Machine

/-- A frame is the bytes at addresses 0 to 74 in that order, and one Latch (R98). -/
theorem frameEvents_eq (m : Memory) : frameEvents m = (List.range 75).map (fun a => Event.byte (m.read a)) ++ [.latch] := by
  rw [frameEvents, Memory.frame_eq, List.map_map]
  rfl

/-- Settles O19: format Z leaves EMIT one word, and its pseudocode is a frame of BUF and a response. -/
theorem emitSendsTheBufferInAddressOrder : Obligations.EmitSendsTheBufferInAddressOrder := by
  refine ⟨rfl, fun w => decode_emit_reserved, fun s hr => ?_⟩
  refine ⟨_, exec_ready hr .emit, ?_, rfl, respond_responded .ok 0 _, rfl⟩
  rw [perform_emit_events, frameEvents_eq, List.append_assoc]

/-! ## The frame of an EMIT on the line (R110 to R113) -/

/-- Settles O42: acceptance begins the frame; from there the line is low for the start-up cycles, for the first byte's way
into FIFO and into SHIFT, and after the frame for the gap and the first cycle of IDLE. -/
theorem frameOnTheWireHasNoPause : Obligations.FrameOnTheWireHasNoPause := by
  intro P s hI hr hv hd
  have hp := ((cmdReady_iff s).mp hr).1
  have hw : jobOf s.port.cmd = .emit := jobOf_emit.mpr hd
  have hframe : jobOf s.port.cmd ≠ .short := by simp [hw]
  obtain ⟨⟨hfifo, hnbit, -, -, -, hcur, -⟩, -⟩ := idle_atRest hI hp
  have hline : (s.beginFrame P s.port.cmd s.port).lineLeft P =
      List.replicate (P.startup s.frames + 2) false ++ frameWaveform P s.buf :=
    lineLeft_start (s := s.beginFrame P s.port.cmd s.port) hnbit hfifo hcur
  refine ⟨P.startup s.frames + 1, fun ins h hn => ?_⟩
  have hrun := (frame_run (beginFrame_inv hI hp hframe s.port) rfl ins h).2
  rw [hline] at hrun
  rw [clockEdge_accepts_emit hr hv hI hw,
    (hrun (by rw [List.length_append, List.length_replicate, frameWaveform_length]; omega)).2]
  simp [List.replicate_succ]

/-! ## The gap (R103, R111) -/

/-- What the invariant says of a block in GAP (R103). -/
theorem gap_atRest {P : Params} {s : State} (h : s.Inv P) (hp : s.phase = .gap) :
    s.dout = false ∧ s.gapt < P.gapCycles := by
  have hphase := h.phase
  simp only [State.phaseInv, hp] at hphase
  obtain ⟨⟨-, -, -, -, -, -, hdout⟩, -, hgapt, -⟩ := hphase
  exact ⟨hdout, hgapt⟩

/-- The end of the gap: IDLE, one Latch and the response OK, for either command that sends a frame (R103). -/
theorem finishFrame_spec (s : State) :
    (finishFrame s).phase = .idle ∧ (finishFrame s).dout = s.dout ∧ responded s (finishFrame s) 0x00000000#32 ∧
      (finishFrame s).events = s.events ++ [.latch] := by
  unfold finishFrame
  split <;> exact ⟨rfl, rfl, ⟨rfl, rfl, rfl⟩, rfl⟩

/-- Settles O44: before its bound only GAPT moves, and the edge that reaches it finishes the frame. -/
theorem gapLastsUntilGaptReachesItsBound : Obligations.GapLastsUntilGaptReachesItsBound := by
  intro P s ins hI hp h
  obtain ⟨hdout, hgapt⟩ := gap_atRest hI hp
  refine ⟨fun hn => ?_, fun hn => ?_⟩
  · rw [gap_run ins s hp hdout h hn]
    exact ⟨hp, rfl, hdout, rfl, rfl⟩
  · rw [gap_whole ins s hp hdout h hgapt hn]
    obtain ⟨hphase, hlow, hresponded, hevents⟩ :=
      finishFrame_spec { s with gapt := P.gapCycles, port := portAfter s ins, respValid := false }
    exact ⟨hphase, hlow.trans hdout, hresponded, hevents⟩

end Sys2Proof.Machine
end

section
/-!
SUPPORT. Errors and the fatal state (60_exceptions.md): which words are ILLEGAL, what a refused command leaves of a
ready block, and the FAULT phase.
-/

namespace Sys2Proof

/-! ## ILLEGAL words (R119) -/

/-- A branch that reads a command under a condition on the reserved bits fails exactly without it (R67). -/
theorem exists_error_iff_not {ε α : Type} {c : Prop} [Decidable c] {a : α} {x : ε} :
    (∃ e, (if c then .ok a else .error x : Except ε α) = .error e) ↔ ¬ c := by
  by_cases hc : c <;> simp [hc]

/-- The opcodes that no command has (R61). -/
theorem eq_reserved_of_no_command (op : BitVec 3) :
    op ≠ 0b001#3 → op ≠ 0b010#3 → op ≠ 0b011#3 → op ≠ 0b100#3 → op ≠ 0b101#3 → op ≠ 0b110#3 →
      op = 0b000#3 ∨ op = 0b111#3 := by
  revert op; decide

/-- The decoder refuses R119's words and no other: one case a branch, by the reserved bits in formats Z, D, C. -/
theorem decode_error_iff (w : Word) : (∃ e, decode w = .error e) ↔
    (opcode w = 0b000#3 ∨ opcode w = 0b111#3 ∨
      ((opcode w = 0b001#3 ∨ opcode w = 0b100#3) ∧ w.extractLsb' 0 29 ≠ 0) ∨
      ((opcode w = 0b011#3 ∨ opcode w = 0b101#3) ∧ w.extractLsb' 4 25 ≠ 0) ∨
      (opcode w = 0b110#3 ∧ w.extractLsb' 8 21 ≠ 0)) := by
  unfold decode
  split
  · next hop => simp [exists_error_iff_not, hop]
  split
  · next hop => simp [hop]
  split
  · next hop => simp [exists_error_iff_not, hop]
  split
  · next hop => simp [exists_error_iff_not, hop]
  split
  · next hop => simp [exists_error_iff_not, hop]
  split
  · next hop => simp [exists_error_iff_not, hop]
  next hclear hwrite hdraw hemit hrender hmap =>
    have hreserved := eq_reserved_of_no_command _ hclear hwrite hdraw hemit hrender hmap
    exact ⟨fun _ => hreserved.imp_right .inl, fun _ => ⟨_, rfl⟩⟩

end Sys2Proof

namespace Sys2Proof.Machine

/-! ## Refusals (R118, R122) -/

/-- An ILLEGAL word's transaction is a refusal (R67). -/
theorem transact_illegal {P : Params} {w : Word} {e : Illegal} (h : decode w = .error e) (s : State) :
    transact P w s = s.refuse .illegal := by
  rw [transact, h]
  rfl

/-- Settles O4: the decoder's branches are R119's list, and an accepted ILLEGAL word steps to a refusal. -/
theorem illegalWordsAnswerTwoAndChangeNothingElse : Obligations.IllegalWordsAnswerTwoAndChangeNothingElse := by
  refine ⟨decode_error_iff, fun s e hr hv h => ?_⟩
  rw [step_accepted (accepted?_eq_some.mpr ⟨hr, hv, rfl⟩), transact_illegal h]
  rfl

/-- A ready block given a command whose pseudocode refuses it as out of range steps to that refusal. -/
theorem exec_eq_refusal {i : Instr} {s : State} (hr : s.cmdReady = true)
    (h : perform Config.params i s = s.refuse .outOfRange) :
    exec i s = .next { s with
      resp := 0x00000001#32, respValid := true, responses := s.responses ++ [0x00000001#32] } :=
  (exec_ready hr i).trans (congrArg _ h)

/-- Settles O24: each of the four commands checks its operands first and refuses those outside its range. -/
theorem outOfRangeOperandsAnswerOneAndChangeNothingElse :
    Obligations.OutOfRangeOperandsAnswerOneAndChangeNothingElse := fun s hr =>
  ⟨fun _ g r b hp => exec_eq_refusal hr (doWritePixel_outOfRange hp g r b s),
    fun _ hd => exec_eq_refusal hr (doDraw_outOfRange _ hd s),
    fun _ hd => exec_eq_refusal hr (doRender_outOfRange _ hd s),
    fun _ _ hout => exec_eq_refusal hr (doMap_outOfRange hout s)⟩

/-! ## The FAULT phase (R124) -/

/-- What the invariant says of the outputs and of BUF in FAULT (R124). -/
theorem fault_atReset {P : Params} {s : State} (h : s.Inv P) (hp : s.phase = .fault) :
    s.dout = false ∧ s.buf = Memory.zero ∧ s.resp = 0x00000000#32 ∧ s.respValid = false := by
  have hphase := h.phase
  simp only [State.phaseInv, hp] at hphase
  obtain ⟨⟨-, -, -, -, -, -, hdout⟩, -, -, -, hbuf, hresp, hvalid⟩ := hphase
  exact ⟨hdout, hbuf, hresp, hvalid⟩

/-- With RESP_VALID low already, edges in FAULT move the input ports alone. -/
theorem fault_cycles {P : Params} {s : State} (h : s.Inv P) (hp : s.phase = .fault) {ins : List PortIn}
    (hn : noReset ins) : cycles P s ins = { s with port := portAfter s ins } := by
  obtain ⟨hdout, -, -, hvalid⟩ := fault_atReset h hp
  rw [fault_run ins s hp hdout hn, hvalid, Bool.false_and, ← hvalid]

theorem portAfter_rst {s : State} {ins : List PortIn} (hr : s.port.rst = false) (hn : noReset ins) :
    (portAfter s ins).rst = false := by
  rcases List.eq_nil_or_concat' ins with rfl | ⟨is, i, rfl⟩
  · exact hr
  · simpa [portAfter] using hn i (by simp)

/-- The outputs in FAULT (R124). -/
theorem fault_out {P : Params} {s : State} (h : s.Inv P) (hp : s.phase = .fault) (hr : s.port.rst = false) :
    s.out = ⟨false, false, 0x00000000#32, false, true, false⟩ := by
  obtain ⟨hdout, -, hresp, hvalid⟩ := fault_atReset h hp
  have hready : s.cmdReady = false := cmdReady_eq_false (by simp [hp])
  have hbusy : s.busy = false := by rw [State.busy, hp]
  rw [out_run hr, hready, hvalid, hresp, hbusy, (faultFlag_iff s).mpr hp, hdout]

/-- In FAULT without a reset no command has a step (R124). -/
theorem exec_fault {s : State} (hp : s.phase = .fault) (hr : s.port.rst = false) (i : Instr) :
    exec i s = .fault .fatalStartUp :=
  (exec_eq_accept i s).trans (accept_fault hp hr _)

/-- Settles O8: the edges leave a FAULT state of the invariant that differs in the ports alone, so the invariant gives
its registers and outputs; neither `step` nor `exec` has a next state there, and reset makes PHASE INIT. -/
theorem faultAcceptsNothingUntilReset : Obligations.FaultAcceptsNothingUntilReset := by
  intro P s ins hI hp hr hn
  obtain ⟨-, hbuf, -, -⟩ := fault_atReset hI hp
  have hrst := portAfter_rst hr hn
  rw [fault_cycles hI hp hn]
  refine ⟨hp, fault_out (hI.withPort _) hp hrst, hbuf, rfl, rfl, step_fault hp hrst, exec_fault hp hrst, ?_⟩
  rw [clockEdge_reset rfl]
  rfl

end Sys2Proof.Machine
end

section
/-!
SUPPORT. Reset and INIT (70_reset_and_hazards.md section 1): an edge with rst = 1, and the edges from reset to IDLE or to FAULT.
-/

namespace Sys2Proof.Machine

/-! ## Under reset (R134, R135) -/

/-- While rst = 1 the outputs are those of the reset values (R134; log entry 19). -/
theorem out_reset {s : State} (h : s.port.rst = true) : s.out = ⟨false, false, 0x00000000#32, true, false, false⟩ := by
  have hready : s.cmdReady = false := by simp [State.cmdReady, h]
  rw [State.out, if_pos h, hready]
  rfl

/-- While rst = 1 nothing is accepted, and the step is a clock edge in every phase, FAULT too. -/
theorem step_reset {s : State} (h : s.port.rst = true) : step s = .next (clockEdge Config.params s) := by
  have hnone : accepted? s = none := accepted?_eq_none.mpr (.inl (by simp [State.cmdReady, h]))
  rw [step_tick hnone, tick_next (by simp [h])]

/-- Settles O6: the edge is `inReset`, whose fields are the table's; a step accepts nothing and is that edge. -/
theorem resetAbandonsWhateverIsInProgress : Obligations.ResetAbandonsWhateverIsInProgress := by
  intro P s h
  rw [clockEdge_reset h]
  exact ⟨rfl, rfl, rfl, rfl, rfl, rfl, rfl, rfl, rfl, rfl, rfl, rfl, out_reset h, step_reset h⟩

/-! ## INIT to its end (R123, R136) -/

section
variable {P : Params} {s : State} (hp : s.phase = .init) (hd : s.dout = false)
include hp hd

/-- The edge of INIT at which GAPT reaches its bound. -/
theorem init_end (hc : P.channelOk = true) {i : PortIn} (h : i.rst = false) (hn : s.gapt + 1 = P.gapCycles) :
    clockWith P s i = { s with gapt := P.gapCycles, phase := .idle, port := i, respValid := false } := by
  rw [clockWith_run h]
  simp [phaseEdge, initEdge, State.quiet, State.levelled, lineLevel, hp, hd, hc, hn]

/-- INIT with a channel, from any of its cycles to its end. -/
theorem init_whole (hc : P.channelOk = true) {ins : List PortIn} (h : noReset ins) (hl : s.gapt < P.gapCycles)
    (hn : s.gapt + ins.length = P.gapCycles) :
    cycles P s ins = { s with gapt := P.gapCycles, phase := .idle, port := portAfter s ins, respValid := false } := by
  rcases List.eq_nil_or_concat' ins with rfl | ⟨is, i, rfl⟩
  · rw [List.length_nil] at hn; omega
  · simp only [noReset_append, noReset_cons] at h
    simp only [List.length_append, List.length_cons, List.length_nil] at hn
    obtain ⟨his, hi, -⟩ := h
    have hlast : s.gapt + is.length + 1 = P.gapCycles := by omega
    rw [cycles_append, init_run hc is s hp hd his (by omega), cycles_cons, cycles_nil,
      init_end (s := { s with
        gapt := s.gapt + is.length, port := portAfter s is, respValid := s.respValid && is.isEmpty }) hp hd hc hi hlast]
    simp [portAfter]

/-- Without a channel the first edge of INIT enters FAULT (R123). -/
theorem init_no_channel (hc : P.channelOk = false) {i : PortIn} (h : i.rst = false) :
    clockWith P s i = { s with phase := .fault, port := i, respValid := false } := by
  rw [clockWith_run h]
  simp [phaseEdge, initEdge, State.quiet, State.levelled, lineLevel, hd, hc, hp]

end

/-- After at least one edge the levels at the ports are those of an edge. -/
theorem portAfter_mem (s : State) {ins : List PortIn} (h : ins ≠ []) : portAfter s ins ∈ ins := by
  rw [portAfter, List.getLast?_eq_some_getLast h]
  exact List.getLast_mem h

/-- Settles O7: without a channel the first edge enters FAULT, which lasts; with one GAPT counts the edges up to its bound, and
the edge that reaches it leaves the block IDLE, the line low all the while. -/
theorem initHoldsTheLineLowForTheGap : Obligations.InitHoldsTheLineLowForTheGap := by
  intro P s ins h
  refine ⟨fun hc hne => ?_, fun hc hn => ?_, fun hc hn => ?_⟩
  · obtain ⟨i, is, rfl⟩ := List.exists_cons_of_ne_nil hne
    obtain ⟨hi, his⟩ := noReset_cons.mp h
    rw [cycles_cons, init_no_channel rfl rfl hc hi, fault_run is _ rfl rfl his]
  · rw [init_run hc ins s.inReset rfl rfl h (by simpa using hn)]
    exact ⟨rfl, Nat.zero_add _, rfl⟩
  · have hne : ins ≠ [] := List.ne_nil_of_length_pos (hn ▸ P.gapCycles_pos)
    rw [init_whole rfl rfl hc h P.gapCycles_pos (by simpa using hn)]
    exact ⟨rfl, rfl, (cmdReady_iff _).mpr ⟨rfl, h _ (portAfter_mem s.inReset hne)⟩⟩

end Sys2Proof.Machine
end

section
/-!
SUPPORT. The host's counter, timestamp and flag (70_reset_and_hazards.md section 5): a button event inside the debounce window,
one past it, and the bound of the counter over every event of the closed system.
-/

namespace Sys2Proof.Machine

/-! ## Button events (R151 to R154) -/

theorem debounced_iff {h : RefHost} {now : Nat} : h.debounced now = true ↔ h.lastAccepted + 200 < now :=
  decide_eq_true_iff

/-- Settles O48: such an event is not debounced. -/
theorem eventsInsideTheWindowAreDropped : Obligations.EventsInsideTheWindowAreDropped := by
  intro P h now hin
  have hdrop : ¬ h.debounced now = true := fun hd => Nat.not_lt_of_le hin (debounced_iff.mp hd)
  exact ⟨if_neg hdrop, if_neg hdrop⟩

section
variable (P : Params) (h : RefHost) (now : Nat)

/-- An accepted event that changes the counter sets render-pending (R154). -/
theorem settle_moved {c : Nat} (hc : c ≠ h.counter) :
    h.settle P now c = { h with counter := c, lastAccepted := now, renderPending := true } := by
  simp [RefHost.settle, hc]

/-- An accepted event that the counter's bound blocks sets render-pending only by FLAG_ON_BLOCKED (R154). -/
theorem settle_blocked : h.settle P now h.counter =
    { h with lastAccepted := now, renderPending := h.renderPending || P.flagOnBlocked } := by
  simp [RefHost.settle]

variable {h now} (hd : h.lastAccepted + 200 < now)
include hd

theorem onIncrement_accepted :
    h.onIncrement P now = h.settle P now (if h.counter < 9 then h.counter + 1 else h.counter) :=
  if_pos (debounced_iff.mpr hd)

theorem onDecrement_accepted :
    h.onDecrement P now = h.settle P now (if 0 < h.counter then h.counter - 1 else h.counter) :=
  if_pos (debounced_iff.mpr hd)

end

/-- Settles O49: an accepted event settles at the next counter inside the bound, at the same one when blocked. -/
theorem acceptedEventsMoveCounterAndTimestamp : Obligations.AcceptedEventsMoveCounterAndTimestamp := by
  intro P h now hd
  rw [onIncrement_accepted P hd, onDecrement_accepted P hd]
  refine ⟨fun hc => ?_, fun hc => ?_, fun hc => ?_, fun hc => ?_⟩
  · rw [if_pos hc, settle_moved P h now (Nat.succ_ne_self _)]
  · rw [if_neg (Nat.not_lt_of_le hc), settle_blocked]
  · rw [if_pos hc, settle_moved P h now (by omega)]
  · rw [if_neg (by omega), settle_blocked]

/-! ## The bound of the counter (R150 to R152) -/

theorem onIncrement_counter_le {h : RefHost} (hc : h.counter ≤ 9) (P : Params) (now : Nat) :
    (h.onIncrement P now).counter ≤ 9 := by
  unfold RefHost.onIncrement
  split
  · show (if h.counter < 9 then h.counter + 1 else h.counter) ≤ 9
    split <;> omega
  · exact hc

theorem onDecrement_counter_le {h : RefHost} (hc : h.counter ≤ 9) (P : Params) (now : Nat) :
    (h.onDecrement P now).counter ≤ 9 := by
  unfold RefHost.onDecrement
  split
  · show (if 0 < h.counter then h.counter - 1 else h.counter) ≤ 9
    split <;> omega
  · exact hc

theorem tickBody_counter (h : RefHost) : h.tickBody.counter = h.counter := by
  unfold RefHost.tickBody
  split
  · split <;> rfl
  · rfl

theorem tick_counter (now : Nat) (h : RefHost) : (h.tick now).counter = h.counter := by
  unfold RefHost.tick
  split
  · exact tickBody_counter _
  · rfl

theorem answered_counter (h : RefHost) : h.answered.counter = h.counter := by
  unfold RefHost.answered
  split <;> rfl

/-- Beside the block's step the host is the one that is given. -/
theorem host_of_withHost {h : RefHost} {o : Host.Outcome State Fault Refusal} {z : System}
    (hz : withHost h o = .next z) : z.host = h := by
  cases o with
  | next t => cases hz; rfl
  | fault f => cases hz
  | refused r => cases hz

/-- While the block steps the host goes on waiting or has its response. -/
theorem clock_host {y z : System} (hz : y.clock = .next z) : z.host = y.host.answered ∨ z.host = y.host := by
  rw [host_of_withHost hz]
  split
  · exact .inl rfl
  · exact .inr rfl

/-- Settles O50: the two button events keep the counter within its bound, and no other event but a restart, which makes it 0,
moves it. -/
theorem counterStaysBetweenZeroAndNine : Obligations.CounterStaysBetweenZeroAndNine := by
  refine fun P y z e => ⟨Nat.zero_le 9, fun hc hz => ?_⟩
  cases e with
  | clock =>
    rcases clock_host hz with hh | hh
    · rw [hh, answered_counter]; exact hc
    · rw [hh]; exact hc
  | increment now => cases hz; exact onIncrement_counter_le hc P now
  | decrement now => cases hz; exact onDecrement_counter_le hc P now
  | tick now => cases hz; exact (tick_counter now y.host).trans_le hc
  | restart => rw [host_of_withHost hz]; exact Nat.zero_le 9

end Sys2Proof.Machine
end

section
/-!
SUPPORT. The host's commands on the block (70_reset_and_hazards.md section 5): waiting on a busy block, the answer of an IDLE one,
no step in FAULT; and the tick.
-/

namespace Sys2Proof.Machine

/-! ## One step of the block under the levels the host drives (R139, R140) -/

/-- The host drives the input ports alone, and never reset (R139). -/
theorem drive_eq (h : RefHost) (s : State) : ∃ v w, h.drive s = { s with port := ⟨false, v, w⟩ } := by
  unfold RefHost.drive
  split
  · split <;> exact ⟨_, _, rfl⟩
  · exact ⟨_, _, rfl⟩
  · exact ⟨_, _, rfl⟩

/-- Beside a block in FAULT a host waits for ever (R124). -/
theorem clock_fault {y : System} (hf : y.block.phase = .fault) : y.clock = .fault .fatalStartUp := by
  obtain ⟨v, w, hd⟩ := drive_eq y.host y.block
  have hstuck : step (y.host.drive y.block) = .fault .fatalStartUp := by
    rw [hd]
    exact step_fault hf rfl
  rw [System.clock, hstuck]
  rfl

/-- A word presented to a block that is neither IDLE nor in FAULT is not taken: the step is a clock edge (R140). -/
theorem step_present_busy {s : State} (hi : s.phase ≠ .idle) (hf : s.phase ≠ .fault) (w : Word) :
    step (s.present w) = .next (clockEdge Config.params (s.present w)) := by
  rw [step_tick (accepted?_present_busy hi w), tick_next (s := s.present w) fun h => hf h.1]

/-- Beside such a block the host is as before. -/
theorem clock_busy {y : System} {w : Word} (hd : y.host.drive y.block = y.block.present w)
    (hi : y.block.phase ≠ .idle) (hf : y.block.phase ≠ .fault) :
    y.clock = .next ⟨y.host, clockEdge Config.params (y.block.present w)⟩ := by
  rw [System.clock, hd, step_present_busy hi hf, accepted?_present_busy hi]
  rfl

/-- A well-formed command the host presents to an IDLE block is its pseudocode (R73). -/
theorem clock_command {y : System} {i : Instr} (hw : i.wf = true)
    (hd : y.host.drive y.block = y.block.present (encode i)) (hi : y.block.phase = .idle) :
    y.clock = .next ⟨y.host.answered, perform Config.params i (y.block.present (encode i))⟩ := by
  rw [clock_accept hd hi, transact_decoded (decodeOfEncodeIsTheCommand i hw)]

/-- The response to an issued command ends the tick with the indicator (R155). -/
theorem answered_issuing {h : RefHost} {i : Instr} (hp : h.polling = .issuing i) :
    h.answered = { h with polling := .loop, indicator := !h.indicator } := by
  rw [RefHost.answered, hp]
  rfl

/-- Settles O53: the issued command is presented at every step, and the block's phase says whether that step is an edge, the
command, or none. -/
theorem hostWaitsForItsResponse : Obligations.HostWaitsForItsResponse := by
  intro P y i hp hw
  have hd := drive_issuing hp y.block
  refine ⟨fun hi hf => ⟨_, step_present_busy hi hf _, clock_busy hd hi hf⟩, fun hi => ?_, clock_fault⟩
  have hr : (y.block.present (encode i)).cmdReady = true := (cmdReady_iff _).mpr ⟨hi, rfl⟩
  obtain ⟨r, -, -, -, hresponses⟩ := perform_responds Config.params i (y.block.present (encode i))
  refine ⟨_, r, exec_ready hr i, hresponses, ?_⟩
  rw [System.handle, clock_command hw hd hi, answered_issuing hp]

/-! ## The tick (R146, R155) -/

/-- A host that presents RENDER of a digit to an IDLE block has it answered by the digit's frame and one response OK. -/
theorem clock_render {y : System} (d : Fin nGlyphs)
    (hd : y.host.drive y.block = y.block.present (encode (.render d.val))) (hi : y.block.phase = .idle) :
    ∃ t, y.clock = .next ⟨y.host.answered, t⟩ ∧ t.phase = .idle ∧ t.responses = y.block.responses ++ [0x00000000#32] ∧
      t.events = y.block.events ++ frameEvents (Memory.zero.draw (Config.params.glyph d)) := by
  have hw : (Instr.render d.val).wf = true := decide_eq_true (Nat.lt_trans d.isLt (by decide))
  refine ⟨_, clock_command hw hd hi, ?_⟩
  rw [perform, doRender_digit]
  exact ⟨hi, rfl, rfl⟩

section
variable {h : RefHost} {now : Nat}

theorem tick_due (hp : h.polling = .loop) (hd : h.tickDue ≤ now) :
    h.tick now = { h with ticks := h.ticks + 1 }.tickBody :=
  if_pos ⟨hp, hd⟩

/-- A tick that is not due, or that the polling context cannot come to, does nothing. -/
theorem tick_not_due (hn : h.polling ≠ .loop ∨ now < h.tickDue) : h.tick now = h :=
  if_neg fun hdue => hn.elim (fun hp => hp hdue.1) (Nat.not_lt_of_le hdue.2)

theorem tickBody_pending (hr : h.renderPending = true) (hc : h.counter ≤ 9) :
    h.tickBody = { h with renderPending := false, polling := .issuing (.render h.counter) } := by
  rw [RefHost.tickBody, if_pos hr, if_neg (Nat.not_lt_of_le hc)]

theorem tickBody_quiet (hr : h.renderPending = false) : h.tickBody = { h with indicator := !h.indicator } :=
  if_neg (by simp [hr])

end

/-- Settles O51: a due tick with render-pending presents RENDER of the counter, which the block's next step answers. -/
theorem pendingTickRendersTheCounter : Obligations.PendingTickRendersTheCounter := by
  intro P y now
  refine ⟨fun d hi hc hp hd hr => ?_, fun hp hd hr => ?_, fun hn => ?_⟩
  · have htick : y.host.tick now = { y.host with
        ticks := y.host.ticks + 1, renderPending := false, polling := .issuing (.render d.val) } := by
      have hle : y.host.counter ≤ 9 := hc ▸ Nat.le_of_lt_succ d.isLt
      rw [tick_due hp hd, tickBody_pending (h := { y.host with ticks := y.host.ticks + 1 }) hr hle, ← hc]
    obtain ⟨t, hclock, hphase, hresponses, hevents⟩ :=
      clock_render (y := { y with host := y.host.tick now }) d (drive_issuing (by rw [htick]) y.block) hi
    refine ⟨_, _, rfl, rfl, htick, hclock, ?_, ?_, hresponses, hphase⟩
    · rw [htick, answered_issuing rfl, ← hp]
    · rw [hevents, frameEvents_draw, List.append_assoc]
  · rw [System.handle, tick_due hp hd, tickBody_quiet (h := { y.host with ticks := y.host.ticks + 1 }) hr]
  · rw [System.handle, tick_not_due hn]

end Sys2Proof.Machine
end

section
/-!
SUPPORT. Start-up of the host (70_reset_and_hazards.md section 5) and the strip (43_stream.md section 4): what a Latch after a
frame shows, and the closed system from power-on to the answer of RENDER 0.
-/

namespace Sys2Proof.Machine

/-! ## The strip after a frame (R116) -/

/-- Whatever was sent before, the last Latch ends a list of bytes that ends in the bytes sent just before it. -/
theorem latchedFrames_latch (es : List Event) (bytes acc : List Byte) :
    ∃ frames before, latchedFrames (es ++ (bytes.map Event.byte ++ [.latch])) acc = frames ++ [before ++ bytes] := by
  induction es generalizing acc with
  | nil =>
    refine ⟨[], acc, ?_⟩
    induction bytes generalizing acc with
    | nil => simp [latchedFrames]
    | cons v vs ih => simpa [latchedFrames] using ih (acc ++ [v])
  | cons e es ih =>
    cases e with
    | byte v => exact ih (acc ++ [v])
    | latch =>
      obtain ⟨frames, before, h⟩ := ih []
      exact ⟨acc :: frames, before, congrArg (acc :: ·) h⟩

/-- The last 75 bytes are what a Latch shows. -/
theorem shownBytes_append (before : List Byte) {bytes : List Byte} (h : bytes.length = nBytes) :
    shownBytes (before ++ bytes) = bytes := by
  rw [shownBytes, List.length_append, h, Nat.add_sub_cancel, List.drop_left]

/-- A frame of BUF shows BUF's pixels, one at each position (R116). -/
theorem ledColour_frame (m : Memory) {k : Nat} (hk : k < nPix) : ledColour m.frame k = m.pixel k := by
  have hbyte : ∀ c, m.frame.getD (chanAddr k c) 0 = m.read (chanAddr k c) := fun c => by
    simp [Memory.frame_eq, List.getD, chanAddr_lt hk c]
  rw [ledColour, hbyte, hbyte, hbyte]
  rfl

/-- After a whole frame the strip shows BUF, whatever was sent before (R116). -/
theorem strip_frameEvents (es : List Event) (m : Memory) :
    strip (es ++ frameEvents m) = some ((List.range nPix).map m.pixel) := by
  obtain ⟨frames, before, h⟩ := latchedFrames_latch es m.frame []
  rw [strip, frameEvents, h, List.getLast?_concat, Option.map_some, shownBytes_append before m.frame_length]
  exact congrArg some (List.map_congr_left fun k hk => ledColour_frame m (List.mem_range.mp hk))

/-- After the frame of a drawn digit the strip shows the digit through the serpentine mapping (R96). -/
theorem strip_drawn (es : List Event) (m : Memory) (G : Glyph) :
    strip (es ++ frameEvents (m.draw G)) = some ((List.range nPix).map fun k => Cell.toPixel (cellAt G k)) := by
  rw [strip_frameEvents]
  exact congrArg some (List.map_congr_left fun k hk => Memory.pixel_draw_cellAt m G (List.mem_range.mp hk))

/-! ## Start-up on an IDLE block (R138, R156) -/

/-- A host in start-up has RENDER 0 answered by an IDLE block's next step, and is then between two ticks. -/
theorem clock_boot {y : System} (hi : y.block.phase = .idle) (hb : y.host.polling = .boot) :
    ∃ z, y.clock = .next z ∧ z.host = { y.host with polling := .loop } ∧
      z.block.responses = y.block.responses ++ [0x00000000#32] ∧
      strip z.block.events = some ((List.range nPix).map fun k => Cell.toPixel (cellAt (Config.params.glyph 0) k)) := by
  obtain ⟨t, hclock, -, hresponses, hevents⟩ := clock_render 0 (drive_boot_idle hb hi) hi
  refine ⟨_, hclock, ?_, hresponses, hevents ▸ strip_drawn _ _ _⟩
  rw [RefHost.answered, hb]

/-! ## From power-on (R136, R156) -/

/-- The block `n` cycles after power-on, still in INIT, with nothing presented. -/
def State.inInit (n : Nat) : State := { State.reset with gapt := n }

/-- The closed system in INIT: the host presents nothing, so the step is an edge of INIT. -/
theorem clock_inInit (P : Params) (n : Nat) :
    System.clock ⟨RefHost.start P, State.inInit n⟩ =
      .next ⟨RefHost.start P, clockWith Config.params (State.inInit n) ⟨false, false, 0x00000000#32⟩⟩ :=
  clock_release (y := ⟨RefHost.start P, State.inInit n⟩)
    (drive_boot_busy rfl (show Phase.init ≠ .idle by decide)) (show Phase.init ≠ .fault by decide)

/-- One clock event after `n` others. -/
theorem run_clock_succ {P : Params} {y z u : System} {n : Nat} (h : y.run P (List.replicate n .clock) = .next z)
    (hu : z.clock = .next u) : y.run P (List.replicate (n + 1) .clock) = .next u := by
  have hlast : z.handle P .clock = .next u := hu
  rw [List.replicate_succ', run_append _ h, run_cons_next hlast]
  rfl

section
variable (P : Params) (hc : Config.params.channelOk = true)
include hc

/-- Before the bound of GAPT the system waits in INIT. -/
theorem run_inInit {n : Nat} (hn : n < Config.params.gapCycles) :
    (System.start P).run P (List.replicate n .clock) = .next ⟨RefHost.start P, State.inInit n⟩ := by
  induction n with
  | zero => rfl
  | succ n ih =>
    have hedge : clockWith Config.params (State.inInit n) ⟨false, false, 0x00000000#32⟩ = State.inInit (n + 1) :=
      init_run hc [⟨false, false, 0x00000000#32⟩] (State.inInit n) rfl rfl (by simp) hn
    rw [run_clock_succ (ih (Nat.lt_of_succ_lt hn)) (clock_inInit P n), hedge]

/-- At the bound the block is IDLE and the host has issued nothing. -/
theorem run_init_whole :
    (System.start P).run P (List.replicate Config.params.gapCycles .clock) =
      .next ⟨RefHost.start P, State.reset.afterInit Config.params⟩ := by
  obtain ⟨n, hn⟩ := Nat.exists_eq_add_one.mpr Config.params.gapCycles_pos
  have hedge : clockWith Config.params (State.inInit n) ⟨false, false, 0x00000000#32⟩ =
      State.reset.afterInit Config.params :=
    init_end rfl rfl hc rfl hn.symm
  rw [hn, run_clock_succ (run_inInit P hc (by omega)) (clock_inInit P n), hedge]

/-- Up to the bound the host is at its start and the block has given nothing out. -/
theorem run_powerOn_silent {n : Nat} (hn : n ≤ Config.params.gapCycles) :
    ∃ z, (System.start P).run P (List.replicate n .clock) = .next z ∧
      z.host = RefHost.start P ∧ z.block.responses = [] ∧ z.block.events = [] := by
  rcases Nat.lt_or_eq_of_le hn with hlt | rfl
  · exact ⟨_, run_inInit P hc hlt, rfl, rfl, rfl⟩
  · exact ⟨_, run_init_whole P hc, rfl, rfl, rfl⟩

/-- The step after the bound answers RENDER 0. -/
theorem run_powerOn_render :
    ∃ z, (System.start P).run P (List.replicate (Config.params.gapCycles + 1) .clock) = .next z ∧
      z.host = { RefHost.start P with polling := .loop } ∧ z.block.responses = [0x00000000#32] ∧
      strip z.block.events = some ((List.range nPix).map fun k => Cell.toPixel (cellAt (Config.params.glyph 0) k)) := by
  obtain ⟨z, hclock, hrest⟩ :=
    clock_boot (y := ⟨RefHost.start P, State.reset.afterInit Config.params⟩) rfl rfl
  exact ⟨z, run_clock_succ (run_init_whole P hc) hclock, hrest⟩

end

/-- Without a channel the first step after power-on enters FAULT, and there is no second one (R123, R124). -/
theorem clock_no_channel (P : Params) (hc : Config.params.channelOk = false) :
    ∃ z, (System.start P).clock = .next z ∧ z.host = RefHost.start P ∧ z.block.phase = .fault ∧
      z.clock = .fault .fatalStartUp := by
  have hphase : (clockWith Config.params (State.inInit 0) ⟨false, false, 0x00000000#32⟩).phase = .fault := by
    rw [init_no_channel rfl rfl hc rfl]
  exact ⟨_, clock_inInit P 0, rfl, hphase, clock_fault hphase⟩

/-- Settles O52: on an IDLE block the host's next step is RENDER 0, whose frame the strip shows; from power-on INIT's edges bring
the block to IDLE, or to FAULT, with nothing issued. -/
theorem startUpRenderShowsDigitZero : Obligations.StartUpRenderShowsDigitZero := by
  refine ⟨fun P y hi hb => ?_, fun P y now hb => ?_, fun P => ?_⟩
  · obtain ⟨z, hclock, hhost, -, hstrip⟩ := clock_boot hi hb
    exact ⟨z, hclock, hhost, hstrip⟩
  · rw [System.handle, tick_not_due (.inl (by simp [hb]))]
  · split
    · next hc => exact ⟨fun n => run_powerOn_silent P hc, run_powerOn_render P hc⟩
    · next hc => exact clock_no_channel P (Bool.eq_false_of_not_eq_true hc)

end Sys2Proof.Machine
end

section
/-!
SUPPORT. Runs of command words (70_reset_and_hazards.md, R148): the transactions of the words one after another, and that a run is
over after the last of them.
-/

namespace Sys2Proof.Machine

/-- The transactions of the words, in the order of acceptance (R52). -/
def State.transactAll (P : Params) (ws : List Word) (s : State) : State := ws.foldl (fun u w => transact P w u) s

/-- They leave PHASE and the command in progress alone, and give a response for each word. -/
theorem transactAll_control (P : Params) (ws : List Word) (s : State) :
    (s.transactAll P ws).phase = s.phase ∧ (s.transactAll P ws).job = s.job ∧
      (s.transactAll P ws).responses.length = s.responses.length + ws.length := by
  induction ws generalizing s with
  | nil => exact ⟨rfl, rfl, rfl⟩
  | cons w ws ih =>
    obtain ⟨hphase, hjob, hlength⟩ := ih (transact P w s)
    obtain ⟨hphase₁, hjob₁, -, -, r, hresponses⟩ := transact_control P w s
    refine ⟨hphase.trans hphase₁, hjob.trans hjob₁, hlength.trans ?_⟩
    simp only [hresponses, List.length_append, List.length_cons, List.length_nil]
    omega

/-- An IDLE block takes a presented word, whatever was at its ports before: its transaction, with the word left there (R73). -/
theorem step_presentation {s : State} (hi : s.phase = .idle) (p : PortIn) (w : Word) :
    step { ({ s with port := p } : State) with port := presentation w } =
      .next { transact Config.params w s with port := presentation w } :=
  (step_accepted (accepted?_present hi w)).trans (congrArg _ (transact_port _ w s (presentation w)))

/-- Presenting words one after another to an IDLE block runs their transactions; at the ports some levels are left. -/
theorem runSteps_presentations (ws : List Word) {s : State} (hi : s.phase = .idle) (p : PortIn) :
    ∃ q, runSteps (ws.map presentation) { s with port := p } =
      .next { s.transactAll Config.params ws with port := q } := by
  induction ws generalizing s p with
  | nil => exact ⟨p, rfl⟩
  | cons w ws ih =>
    obtain ⟨hphase, -⟩ := transact_control Config.params w s
    rw [List.map_cons, runSteps_cons_next (step_presentation hi p w)]
    exact ih (hphase.trans hi) (presentation w)

/-- In FAULT without a reset no run is ever over (R124, R148). -/
theorem observeRun_fault {s : State} (hf : s.phase = .fault) {ins : List PortIn} (h : noReset ins) :
    observeRun ins s = none := by
  cases ins with
  | nil => exact observe_eq_none (by simp [hf])
  | cons i is =>
    have hstuck : step { s with port := i } = .fault .fatalStartUp := step_fault hf (noReset_cons.mp h).1
    simp [observeRun, runSteps, hstuck]

/-- Settles O54: each word's step is its transaction, which leaves the block IDLE with no command in progress; in FAULT there is
no step. -/
theorem runIsOverWhenTheLastResponseIsGiven : Obligations.RunIsOverWhenTheLastResponseIsGiven := by
  refine ⟨fun s ws hi hj => ?_, fun s ins hf h => observeRun_fault hf h⟩
  obtain ⟨q, hrun⟩ : ∃ q, runSteps (ws.map presentation) s =
      .next { s.transactAll Config.params ws with port := q } := runSteps_presentations ws hi s.port
  obtain ⟨hphase, hjob, hlength⟩ := transactAll_control Config.params ws s
  have hobserve := observe_idle (s := { s.transactAll Config.params ws with port := q }) (hphase.trans hi) (hjob.trans hj)
  refine ⟨_, hrun, ?_, ?_, rfl, rfl, rfl, hlength⟩
  · simp [State.over, hphase, hjob, hi, hj]
  · rw [observeRun, hrun]
    exact hobserve

end Sys2Proof.Machine
end
